-- ==== Sys2Proof/Word.lean ====
section
/-! DEFINITION. The bit patterns of the block: a byte of the operand memory (R46) and a 32-bit register value (R21). -/

namespace Sys2Proof

/-- `bits8`, one byte of the operand memory (R13, R46). -/
abbrev Byte := BitVec 8

/-- A 32-bit register value, also a request descriptor and a byte address (R21, R24, R65). -/
abbrev Word := BitVec 32

end Sys2Proof
end

