-- ==== Sys2Proof/Syntax.lean ====
section
/-! DEFINITION. The fourteen operations of the opcode map (R67), one constructor per row of spec/opcode_table.json.
An operand that is a field of the request descriptor (W, LEN: R68, R69) is an argument of its constructor; the operands that
stand in registers (SRC, DST, VALUE, EXPECT: R75) are not part of an instruction. -/

namespace Sys2Proof

/-- An operation of the block, with the descriptor fields it takes. -/
inductive Instr where
  /-- B2U16, `bytesToU16` (R86). -/
  | b2u16
  /-- B2I16, `bytesToI16` (R87). -/
  | b2i16
  /-- B2U32, `bytesToU32` (R88). -/
  | b2u32
  /-- B2I32, `bytesToI32` (R89). -/
  | b2i32
  /-- B2F32, `bytesToFloat` (R90). -/
  | b2f32
  /-- U16TOB, `u16ToBytes` (R91). -/
  | u16tob
  /-- I16TOB, `i16ToBytes` (R92). -/
  | i16tob
  /-- U32TOB, `u32ToBytes` (R93). -/
  | u32tob
  /-- I32TOB, `i32ToBytes` (R94). -/
  | i32tob
  /-- F32TOB, `floatToBytes` (R95). -/
  | f32tob
  /-- COPY len, `copyBytes` (R101). -/
  | copy (len : BitVec 16)
  /-- TRUNCPAD w, len, `truncateOrPad` (R102); `w` is the destination width in bytes. -/
  | truncpad (w : BitVec 4) (len : BitVec 16)
  /-- CRCGEN len, `generate` (R113). -/
  | crcgen (len : BitVec 16)
  /-- CRCCHK len, `check` (R114). -/
  | crcchk (len : BitVec 16)
  deriving DecidableEq, Repr

end Sys2Proof
end

