-- ==== Sys2Proof/WellFormed.lean ====
section
/-! DEFINITION. Which terms of Instr stand for a legal request: the one check beyond the fields' own widths is the TRUNCPAD
destination width (R9, R69). -/

namespace Sys2Proof

/-- The four destination widths of TRUNCPAD, "1/2/4/8 bytes" (R9, R69). -/
def legalWidth (w : BitVec 4) : Bool := w == 1#4 || w == 2#4 || w == 4#4 || w == 8#4

/-- LEN may take any 16-bit value wherever it is a field (R72); only W is restricted. -/
def Instr.wellFormed : Instr → Bool
  | .b2u16 | .b2i16 | .b2u32 | .b2i32 | .b2f32 => true
  | .u16tob | .i16tob | .u32tob | .i32tob | .f32tob => true
  | .copy _ | .crcgen _ | .crcchk _ => true
  | .truncpad w _ => legalWidth w

/-- `Instr.wellFormed` as a proposition, for statements. -/
abbrev Instr.WellFormed (i : Instr) : Prop := i.wellFormed = true

end Sys2Proof
end

