-- ==== Sys2Proof/Decode.lean ====
section
/-! DEFINITION. The request descriptor: its fields (R66), the decoder, total on all 2^32 values and rejecting by name (R72, R74,
R76), the legality predicate as R72 writes it, and the encoder (R76). -/

namespace Sys2Proof

/-- OP, bits 7:0 (R66). -/
def opField (d : Word) : BitVec 8 := d.extractLsb' 0 8
/-- W, bits 11:8 (R66, R69). -/
def wField (d : Word) : BitVec 4 := d.extractLsb' 8 4
/-- RSV, bits 15:12 (R66, R70). -/
def rsvField (d : Word) : BitVec 4 := d.extractLsb' 12 4
/-- LEN, bits 31:16 (R66, R68). -/
def lenField (d : Word) : BitVec 16 := d.extractLsb' 16 16

/-- Why a descriptor is not legal (R70 to R72, R74). The block reports all four alike, as IllegalRequest (R73). -/
inductive Reject where
  /-- RSV is not 0 (R70). -/
  | nonzeroRsv
  /-- OP is a reserved code (R67, R74). -/
  | reservedOp
  /-- W is not a width the operation allows (R69). -/
  | illegalWidth
  /-- LEN is not 0 on a fixed-width conversion (R71). -/
  | nonzeroLen
  deriving DecidableEq, Repr

/-- A fixed-width conversion has W = 0 and LEN = 0 (R69, R71). -/
def fixedForm (i : Instr) (d : Word) : Except Reject Instr :=
  if wField d ≠ 0#4 then .error .illegalWidth
  else if lenField d ≠ 0#16 then .error .nonzeroLen
  else .ok i

/-- An operation over a run of LEN bytes has W = 0 and any LEN (R68, R69). -/
def runForm (mk : BitVec 16 → Instr) (d : Word) : Except Reject Instr :=
  if wField d ≠ 0#4 then .error .illegalWidth else .ok (mk (lenField d))

/-- TRUNCPAD has W in {1, 2, 4, 8} and any LEN (R69). -/
def padForm (d : Word) : Except Reject Instr :=
  if legalWidth (wField d) then .ok (.truncpad (wField d) (lenField d)) else .error .illegalWidth

/-- What an OP value selects (R67): an operation whose width is fixed, one that takes a run of LEN bytes, or nothing. -/
inductive OpForm where
  | fixed (i : Instr)
  | copy
  | truncpad
  | crcgen
  | crcchk
  | reserved
  deriving DecidableEq, Repr

/-- The opcode map of R67; every other value is reserved (R74). -/
def opForm (op : BitVec 8) : OpForm :=
  if op = 0x10#8 then .fixed .b2u16
  else if op = 0x11#8 then .fixed .b2i16
  else if op = 0x12#8 then .fixed .b2u32
  else if op = 0x13#8 then .fixed .b2i32
  else if op = 0x14#8 then .fixed .b2f32
  else if op = 0x20#8 then .fixed .u16tob
  else if op = 0x21#8 then .fixed .i16tob
  else if op = 0x22#8 then .fixed .u32tob
  else if op = 0x23#8 then .fixed .i32tob
  else if op = 0x24#8 then .fixed .f32tob
  else if op = 0x30#8 then .copy
  else if op = 0x31#8 then .truncpad
  else if op = 0x40#8 then .crcgen
  else if op = 0x41#8 then .crcchk
  else .reserved

/-- The operation of a descriptor, or the name of what makes it illegal (R67, R72, R76). -/
def decode (d : Word) : Except Reject Instr :=
  if rsvField d ≠ 0#4 then .error .nonzeroRsv
  else
    match opForm (opField d) with
    | .fixed i => fixedForm i d
    | .copy => runForm .copy d
    | .truncpad => padForm d
    | .crcgen => runForm .crcgen d
    | .crcchk => runForm .crcchk d
    | .reserved => .error .reservedOp

/-- The legality predicate, in the form of R72. -/
def legal (d : Word) : Bool :=
  rsvField d == 0#4 &&
    (([0x10#8, 0x11#8, 0x12#8, 0x13#8, 0x14#8, 0x20#8, 0x21#8, 0x22#8, 0x23#8, 0x24#8].contains (opField d)
        && wField d == 0#4 && lenField d == 0#16)
      || ([0x30#8, 0x40#8, 0x41#8].contains (opField d) && wField d == 0#4)
      || (opField d == 0x31#8 && [1#4, 2#4, 4#4, 8#4].contains (wField d)))

/-- `Encode(op, w, len)` of R76: LEN, four zero bits, W, OP, from the most significant bit down. -/
def encodeFields (op : BitVec 8) (w : BitVec 4) (len : BitVec 16) : Word := len ++ 0#4 ++ w ++ op

/-- The OP code of an operation (R67). -/
def Instr.opcode : Instr → BitVec 8
  | .b2u16 => 0x10#8
  | .b2i16 => 0x11#8
  | .b2u32 => 0x12#8
  | .b2i32 => 0x13#8
  | .b2f32 => 0x14#8
  | .u16tob => 0x20#8
  | .i16tob => 0x21#8
  | .u32tob => 0x22#8
  | .i32tob => 0x23#8
  | .f32tob => 0x24#8
  | .copy _ => 0x30#8
  | .truncpad _ _ => 0x31#8
  | .crcgen _ => 0x40#8
  | .crcchk _ => 0x41#8

/-- The W field of an operation's descriptor: 0 but for TRUNCPAD (R69). -/
def Instr.width : Instr → BitVec 4
  | .truncpad w _ => w
  | _ => 0#4

/-- The LEN field of an operation's descriptor: 0 for the conversions (R68, R71). -/
def Instr.length : Instr → BitVec 16
  | .copy len | .truncpad _ len | .crcgen len | .crcchk len => len
  | _ => 0#16

/-- The descriptor of an operation (R76, R77). -/
def encode (i : Instr) : Word := encodeFields i.opcode i.width i.length

/-- The operation the decoder reads from the table's bits. A request is exactly one 32-bit descriptor (R65), so the table's
numbering of bits is the descriptor's own; bits from `nbits` up are 0. -/
def decodeTableWord (nbits w : Nat) : Option Instr := (decode (BitVec.ofNat 32 (w % 2 ^ nbits))).toOption

end Sys2Proof
end

