-- ==== Sys2Proof/Config.lean ====
section
/-! DEFINITION. What one installation of the block fixes and the spec leaves open: the size of the operand memory. The spec
leaves no value free: an unwritten register or byte is never read to a value (R31, R50), so there is no free value here. -/

namespace Sys2Proof

/-- DESIGN CHOICE (log entry 2), unsafe: the highest address of the operand memory of the machine `State.reset`, MEM_BYTES - 1.
R6 leaves `MEM_BYTES` open between 1 and 2^32; this is its largest value, the whole 32-bit address space.
Only `State.reset` uses it: every step reads the size from the state's own field `memTop`. -/
def Config.memTop : Word := 0xFFFFFFFF#32

end Sys2Proof
end

