-- ==== Sys2Proof/Machine/State.lean ====
section
/-! DEFINITION. The state of the model (R42), plain data: the registers with their written marks, the operand memory, its size,
the fault mark, and the host agent's own part (the interactions it still has to make, R37, and what it was given back). -/

namespace Sys2Proof.Machine

/-- The eight register numbers of R21 by name. -/
inductive RegName where
  | cmd | src | dst | value | expect | result | status
  /-- Register 7 (R33). -/
  | reserved
  deriving DecidableEq, Repr

/-- A register that R30 gives a written mark: SRC, DST, VALUE, EXPECT, RESULT. While `written` is false the register "holds no
value the spec defines" and `val` is never read (R31). -/
structure Reg where
  val : Word
  written : Bool
  deriving DecidableEq, Repr

/-- A register holding `v`, written (R30). -/
def Reg.holding (v : Word) : Reg := ⟨v, true⟩

/-- A register as reset leaves it: unwritten (R30, R36). The 0 beside the mark is a DESIGN CHOICE (log entry 1); no step reads it. -/
def Reg.unwritten : Reg := ⟨0#32, false⟩

/-- What the host can do to the block (R37): `n` is a register number, `a` a byte address. -/
inductive Interaction where
  | regWrite (n : Fin 8) (v : Word)
  | regRead (n : Fin 8)
  | memWrite (a : Word) (b : Byte)
  | memRead (a : Word)
  | reset
  deriving DecidableEq, Repr

/-- What the host gets back (R37): a 32-bit value from RegRead, a byte from MemRead. -/
inductive Reply where
  | word (v : Word)
  | byte (b : Byte)
  deriving DecidableEq, Repr

/-- The operand memory (R46) with its written marks (R50): the written bytes by address, addresses strictly rising. An address
that is not listed is unwritten and reads as no value. -/
abbrev Memory := List Host.Cell

/-- The canonical form: strictly rising addresses. (An unlisted address has no value, so no entry can equal it.) -/
def Memory.wf : Memory → Bool
  | [] => true
  | [_] => true
  | (a, _) :: (b, y) :: rest => decide (a < b) && Memory.wf ((b, y) :: rest)

/-- The error codes of STATUS.ERR (R120). -/
inductive ErrCode where
  | noError
  | illegalRequest
  | boundsError
  | overlapError
  deriving DecidableEq, Repr

/-- The model faults, exactly the four of R127. Each stops the machine where the spec gives the hardware no defined behaviour, so
each is safe: nothing can be proved of what the hardware does from there. -/
inductive Fault where
  /-- Raised by an operation that reads an unwritten operand register and by a host read of an unwritten register (R31). Safe. -/
  | unwrittenRegister (r : RegName)
  /-- Raised by an operation or a host read of an unwritten byte of M at `addr` (R50, R41). Safe. -/
  | unwrittenMemory (addr : Nat)
  /-- `ReservedRegister(7)`: raised by a host read or write of register 7 (R33). Safe. -/
  | reservedRegister
  /-- Raised by a host access at an address `addr` at or above MEM_BYTES (R41). Safe. -/
  | hostOutOfRange (addr : Nat)
  deriving DecidableEq, Repr

/-- Why a step is refused. -/
inductive Refusal where
  /-- An instruction with no meaning yet: raised by exec's arm of that name only. Safe. No arm raises it. -/
  | notModelled (mnemonic : String)
  /-- Raised by `step` in a state whose fault mark is set: it "has no further step" (R40, R128). Safe. -/
  | faultMarkSet
  deriving DecidableEq, Repr

/-- The machine's state. `memTop` is MEM_BYTES - 1 (R6), a parameter that no step changes; `pending` and `replies` are the host
agent's (R20, R37), oldest first. -/
structure State where
  /-- CMD, register 0 (R23): always written. -/
  cmd : Word
  /-- SRC, register 1 (R24). -/
  src : Reg
  /-- DST, register 2 (R25). -/
  dst : Reg
  /-- VALUE, register 3 (R26). -/
  value : Reg
  /-- EXPECT, register 4 (R27): bits 31:8 are 0. -/
  expect : Reg
  /-- RESULT, register 5 (R28). -/
  result : Reg
  /-- STATUS, register 6 (R29): always written; bits 3:0 are ERR, the others 0. -/
  status : Word
  /-- The operand memory M (R46). -/
  mem : Memory
  /-- The highest address of M. -/
  memTop : Word
  /-- The fault mark (R40). -/
  faultMark : Bool
  /-- The interactions the host has yet to make (R34, R148). -/
  pending : List Interaction
  /-- What the host has been given back so far (R37). -/
  replies : List Reply
  deriving DecidableEq, Repr

/-- MEM_BYTES (R6): from 1 to 2^32 for every state. -/
def State.memBytes (s : State) : Nat := s.memTop.toNat + 1

/-- The power-on state of a block whose memory ends at address `top`, with nothing asked of it yet (R36, R140, R148). -/
def State.resetWith (top : Word) : State where
  cmd := 0x00000000#32
  src := Reg.unwritten
  dst := Reg.unwritten
  value := Reg.unwritten
  expect := Reg.unwritten
  result := Reg.unwritten
  status := 0x00000000#32
  mem := []
  memTop := top
  faultMark := false
  pending := []
  replies := []

/-- The machine right after reset (R36). -/
def State.reset : State := State.resetWith Config.memTop

end Sys2Proof.Machine
end

