-- ==== Sys2Proof/Machine/Flags.lean ====
section
/-! DEFINITION. STATUS, the only status the block keeps (R29, R35): the error codes (R120) and the field ERR. There are no flags or
condition codes (R35). -/

namespace Sys2Proof.Machine

/-- The code of an error (R120). -/
def ErrCode.code : ErrCode → BitVec 4
  | .noError => 0#4
  | .illegalRequest => 1#4
  | .boundsError => 2#4
  | .overlapError => 3#4

/-- STATUS for an error code: `zext_32(code)`, bits 31:4 zero (R29, R122). -/
def statusWord (e : ErrCode) : Word := e.code.setWidth 32

/-- STATUS.ERR, bits 3:0 (R29). -/
def State.err (s : State) : BitVec 4 := s.status.extractLsb' 0 4

end Sys2Proof.Machine
end

