-- ==== Sys2Proof/Machine/Ops.lean ====
section
/-! DEFINITION. The named operations over registers and memory (R14 to R16), how a request ends (R16, R122), the fault mark (R127) and
Reset (R140). The block has no traps (R124): `State.raise` is the whole of taking an error, and nothing is restored after it (R125). -/

namespace Sys2Proof.Machine

/-! ### Registers -/

/-- The register a number names (R21). -/
def RegName.ofNumber (n : Fin 8) : RegName :=
  match n.val with
  | 0 => .cmd
  | 1 => .src
  | 2 => .dst
  | 3 => .value
  | 4 => .expect
  | 5 => .result
  | 6 => .status
  | _ => .reserved

/-- The number of a register (R21). -/
def RegName.number : RegName → Fin 8
  | .cmd => 0
  | .src => 1
  | .dst => 2
  | .value => 3
  | .expect => 4
  | .result => 5
  | .status => 6
  | .reserved => 7

/-- Reading a register that has a written mark (R14). An unwritten one does not return a value: reading it is the fault that R31 and R127
name (the spec's D12 and U7), in a request as for the host. -/
def Reg.read (x : Reg) (name : RegName) : Except Fault Word :=
  if x.written then .ok x.val else .error (.unwrittenRegister name)

/-- `r[NAME]`, by an operation or by the host (R14, R31, R33, R38). Reading changes nothing. -/
def State.readReg (s : State) : RegName → Except Fault Word
  | .cmd => .ok s.cmd
  | .src => s.src.read .src
  | .dst => s.dst.read .dst
  | .value => s.value.read .value
  | .expect => s.expect.read .expect
  | .result => s.result.read .result
  | .status => .ok s.status
  | .reserved => .error .reservedRegister

/-- A host write of a register other than CMD and register 7 (R38): SRC, DST, VALUE store all 32 bits, EXPECT its low byte (R27),
and each becomes written; RESULT and STATUS are read only, the write has no effect (R32). -/
def State.hostWrite (s : State) (r : RegName) (v : Word) : State :=
  match r with
  | .src => { s with src := Reg.holding v }
  | .dst => { s with dst := Reg.holding v }
  | .value => { s with value := Reg.holding v }
  | .expect => { s with expect := Reg.holding ((v.setWidth 8).setWidth 32) }
  | .cmd | .result | .status | .reserved => s

/-- CMD holds the last descriptor written (R23). -/
def State.setCmd (s : State) (d : Word) : State := { s with cmd := d }

/-- `r[RESULT] <- v`, by an operation; RESULT becomes written (R28, R30). -/
def State.setResult (s : State) (v : Word) : State := { s with result := Reg.holding v }

/-! ### Memory -/

/-- The byte at an address, `none` while it is unwritten (R50). -/
def Memory.get : Memory → Nat → Option Byte
  | [], _ => none
  | (k, b) :: rest, a => if k = a then some b else Memory.get rest a

/-- `M[a] <- b`; the byte becomes written (R15, R50). -/
def Memory.set : Memory → Nat → Byte → Memory
  | [], a, b => [(a, b)]
  | (k, x) :: rest, a, b =>
    if a < k then (a, b) :: (k, x) :: rest
    else if a = k then (a, b) :: rest
    else (k, x) :: Memory.set rest a b

/-- `MemRead(a, n)` with the check of R50: the `n` bytes from `a` up, or the lowest unwritten address among them (R15, R122 step 5). -/
def Memory.readRun (m : Memory) : Nat → Nat → Except Nat (List Byte)
  | _, 0 => .ok []
  | a, n + 1 =>
    match m.get a with
    | none => .error a
    | some b =>
      match Memory.readRun m (a + 1) n with
      | .error x => .error x
      | .ok bs => .ok (b :: bs)

/-- `MemWrite(a, n, seq)`: byte i of the sequence at address a + i (R15). -/
def Memory.writeRun : Memory → Nat → List Byte → Memory
  | m, _, [] => m
  | m, a, b :: bs => Memory.writeRun (m.set a b) (a + 1) bs

/-- A run of bytes written to M. -/
def State.store (s : State) (a : Nat) (bs : List Byte) : State := { s with mem := s.mem.writeRun a bs }

/-! ### How a request ends -/

/-- `raise E`: STATUS.ERR becomes the code, everything else stays as it was (R16, R122, R124). -/
def State.raise (s : State) (e : ErrCode) : State := { s with status := statusWord e }

/-- `complete`: STATUS becomes 0 (R16, R122). -/
def State.complete (s : State) : State := { s with status := statusWord .noError }

/-- The fault mark is set (R127), and nothing else changes. -/
def State.markFault (s : State) : State := { s with faultMark := true }

/-- Reset (R140, R36): every register and every byte of M in its reset state, the fault mark as it was. The memory's size is a
parameter, and what the host has yet to do or has been given back is not the block's. -/
def State.hostReset (s : State) : State :=
  { State.resetWith s.memTop with faultMark := s.faultMark, pending := s.pending, replies := s.replies }

/-! ### The host's side -/

/-- The host is given a value back (R37). -/
def State.reply (s : State) (x : Reply) : State := { s with replies := s.replies ++ [x] }

/-- The host has made its next interaction; `rest` is what it still has to do. -/
def State.setPending (s : State) (rest : List Interaction) : State := { s with pending := rest }

end Sys2Proof.Machine
end

