-- ==== Sys2Proof/Machine/Operands.lean ====
section
/-! DEFINITION. What every operation shares: byte ranges (R48, R100), the checks of a request in their order (R85, R122 steps 2 to 5),
and a value's big-endian bytes (R13, R51). -/

namespace Sys2Proof.Machine

/-- `InBounds(a, n)` of R48, on unbounded integers. -/
def inBounds (memBytes a n : Nat) : Bool := n == 0 || decide (a + n ≤ memBytes)

/-- `Overlap((a, n), (b, m))` of R100. -/
def overlap (a n b m : Nat) : Bool := decide (0 < n) && decide (0 < m) && decide (a < b + m) && decide (b < a + n)

/-- `u32(r[SRC])` (R24). -/
def State.srcAddr (s : State) : Nat := s.src.val.toNat

/-- `u32(r[DST])` (R25). -/
def State.dstAddr (s : State) : Nat := s.dst.val.toNat

/-- Step 2 of R122: the fault of the first register of the list that cannot be read, in the order listed. -/
def State.regFault (s : State) : List RegName → Option Fault
  | [] => none
  | r :: rs =>
    match s.readReg r with
    | .error f => some f
    | .ok _ => s.regFault rs

/-- What the checks of a request come to. -/
inductive Verdict where
  /-- A model fault (R127). -/
  | fault (f : Fault)
  /-- An architectural error (R120). -/
  | raise (e : ErrCode)
  /-- Every check passed; these are the bytes of the source range (R55: all reads come before all writes). -/
  | pass (source : List Byte)
  deriving DecidableEq, Repr

/-- Steps 2 to 5 of R122 for an operation that reads the registers `regs` in that order, `srcLen` bytes at SRC and writes `dstLen`
bytes at DST (R85). The overlap check stands for COPY and TRUNCPAD: no other operation has both lengths positive (R56). -/
def State.check (s : State) (regs : List RegName) (srcLen dstLen : Nat) : Verdict :=
  match s.regFault regs with
  | some f => .fault f
  | none =>
    if !inBounds s.memBytes s.srcAddr srcLen then .raise .boundsError
    else if !inBounds s.memBytes s.dstAddr dstLen then .raise .boundsError
    else if overlap s.srcAddr srcLen s.dstAddr dstLen then .raise .overlapError
    else
      match s.mem.readRun s.srcAddr srcLen with
      | .error a => .fault (.unwrittenMemory a)
      | .ok bs => .pass bs

/-- A legal request (R122 steps 2 to 6): its checks, then its `effect` on the source bytes, then `complete`. -/
def State.request (s : State) (regs : List RegName) (srcLen dstLen : Nat) (effect : List Byte → State) :
    Host.Outcome State Fault Refusal :=
  match s.check regs srcLen dstLen with
  | .fault f => .fault f
  | .raise e => .next (s.raise e)
  | .pass bs => .next (effect bs).complete

/-! ### Byte order -/

/-- The value of a byte sequence read big-endian, first byte most significant (R13, R51), in 32 bits. -/
def bigEndian (bs : List Byte) : Word := bs.foldl (fun v b => (v <<< 8) ||| b.setWidth 32) 0#32

/-- The big-endian bytes of a 16-bit pattern (R13). -/
def bytes16 (v : BitVec 16) : List Byte := [v.extractLsb' 8 8, v.extractLsb' 0 8]

/-- The big-endian bytes of a 32-bit pattern (R13). -/
def bytes32 (v : Word) : List Byte := [v.extractLsb' 24 8, v.extractLsb' 16 8, v.extractLsb' 8 8, v.extractLsb' 0 8]

end Sys2Proof.Machine
end

