-- ==== Sys2Proof/Machine/Convert.lean ====
section
/-! DEFINITION. The ten byte-order conversions (40_convert.md). None does arithmetic (R97), and the float ones are exact bit casts
(R98). -/

namespace Sys2Proof.Machine

/-- B2U16 (R86): `r[RESULT] <- zext_32([b0, b1])`. -/
def execB2u16 (s : State) : Host.Outcome State Fault Refusal :=
  s.request [.src] 2 0 fun bs => s.setResult (((bigEndian bs).setWidth 16).setWidth 32)

/-- B2I16 (R87): `r[RESULT] <- sext_32([b0, b1])`. -/
def execB2i16 (s : State) : Host.Outcome State Fault Refusal :=
  s.request [.src] 2 0 fun bs => s.setResult (((bigEndian bs).setWidth 16).signExtend 32)

/-- B2U32 (R88). -/
def execB2u32 (s : State) : Host.Outcome State Fault Refusal :=
  s.request [.src] 4 0 fun bs => s.setResult (bigEndian bs)

/-- B2I32 (R89): the bits of B2U32, to be read as two's complement. -/
def execB2i32 (s : State) : Host.Outcome State Fault Refusal :=
  s.request [.src] 4 0 fun bs => s.setResult (bigEndian bs)

/-- B2F32 (R90): the bits of B2U32, to be read as binary32; NaN payloads and signs stay (R98). -/
def execB2f32 (s : State) : Host.Outcome State Fault Refusal :=
  s.request [.src] 4 0 fun bs => s.setResult (bigEndian bs)

/-- U16TOB (R91): bits 31:16 of VALUE are ignored. -/
def execU16tob (s : State) : Host.Outcome State Fault Refusal :=
  s.request [.dst, .value] 0 2 fun _ => s.store s.dstAddr (bytes16 (s.value.val.setWidth 16))

/-- I16TOB (R92): the same bytes as U16TOB. -/
def execI16tob (s : State) : Host.Outcome State Fault Refusal :=
  s.request [.dst, .value] 0 2 fun _ => s.store s.dstAddr (bytes16 (s.value.val.setWidth 16))

/-- U32TOB (R93). -/
def execU32tob (s : State) : Host.Outcome State Fault Refusal :=
  s.request [.dst, .value] 0 4 fun _ => s.store s.dstAddr (bytes32 s.value.val)

/-- I32TOB (R94): the same bytes as U32TOB. -/
def execI32tob (s : State) : Host.Outcome State Fault Refusal :=
  s.request [.dst, .value] 0 4 fun _ => s.store s.dstAddr (bytes32 s.value.val)

/-- F32TOB (R95): a bit cast, then the bytes of U32TOB. -/
def execF32tob (s : State) : Host.Outcome State Fault Refusal :=
  s.request [.dst, .value] 0 4 fun _ => s.store s.dstAddr (bytes32 s.value.val)

end Sys2Proof.Machine
end

