-- ==== Sys2Proof/Machine/Copy.lean ====
section
/-! DEFINITION. The two byte copies (41_copy.md): COPY and TRUNCPAD. -/

namespace Sys2Proof.Machine

/-- COPY (R101): byte i of the source goes to byte i of the destination. -/
def execCopy (len : BitVec 16) (s : State) : Host.Outcome State Fault Refusal :=
  s.request [.src, .dst] len.toNat len.toNat fun bs => s.store s.dstAddr bs

/-- The copy length of TRUNCPAD (R103): LEN, collapsing to 0 when LEN > W. -/
def copyLen (w : BitVec 4) (len : BitVec 16) : Nat := if len.toNat ≤ w.toNat then len.toNat else 0

/-- The W destination bytes of TRUNCPAD: zero bytes at the lowest addresses, then the source bytes in order (R104). -/
def padded (w : BitVec 4) (bs : List Byte) : List Byte := List.replicate (w.toNat - bs.length) 0x00#8 ++ bs

/-- TRUNCPAD (R102 to R105). A width other than 1, 2, 4, 8 is an IllegalRequest before any register is read; the decoder never
gives one (R69, R73). -/
def execTruncpad (w : BitVec 4) (len : BitVec 16) (s : State) : Host.Outcome State Fault Refusal :=
  if legalWidth w then
    s.request [.src, .dst] (copyLen w len) w.toNat fun bs => s.store s.dstAddr (padded w bs)
  else .next (s.raise .illegalRequest)

end Sys2Proof.Machine
end

