-- ==== Sys2Proof/Machine/Crc.lean ====
section
/-! DEFINITION. The CRC8 Engine (42_crc8.md): the checksum function (R110) and its two operations. -/

namespace Sys2Proof.Machine

/-- The polynomial (R10, R110). -/
def crcPoly : Byte := 0x31#8

/-- The initial value of the running value (R10, R111). -/
def crcInit : Byte := 0xFF#8

/-- One data bit (R110): shift left, and XOR the polynomial when the running value's top bit differs from the data bit. -/
def crcBit (c : Byte) (d : Bool) : Byte := if c.getLsbD 7 ^^ d then (c <<< 1) ^^^ crcPoly else c <<< 1

/-- One data byte, bit 7 first: no input reflection (R110). -/
def crcByte (c b : Byte) : Byte := [7, 6, 5, 4, 3, 2, 1, 0].foldl (fun c i => crcBit c (b.getLsbD i)) c

/-- `crc8(seq)` of R110: bytes in increasing address order, no output reflection, no final XOR. -/
def crc8 (bs : List Byte) : Byte := bs.foldl crcByte crcInit

/-- CRCGEN (R113): `r[RESULT] <- zext_32(crc8(...))`. -/
def execCrcgen (len : BitVec 16) (s : State) : Host.Outcome State Fault Refusal :=
  s.request [.src] len.toNat 0 fun bs => s.setResult ((crc8 bs).setWidth 32)

/-- CRCCHK (R114): RESULT is 1 on a match with EXPECT[7:0] and 0 on a mismatch, which is no error. -/
def execCrcchk (len : BitVec 16) (s : State) : Host.Outcome State Fault Refusal :=
  s.request [.src, .expect] len.toNat 0 fun bs =>
    s.setResult (if crc8 bs = s.expect.val.extractLsb' 0 8 then 0x00000001#32 else 0x00000000#32)

end Sys2Proof.Machine
end

