-- ==== Sys2Proof/Machine/Dispatch.lean ====
section
/-! DEFINITION. exec: one arm per operation of the opcode map (R67). -/

namespace Sys2Proof.Machine

def exec (i : Instr) (s : State) : Host.Outcome State Fault Refusal :=
  match i with
  | .b2u16 => Sys2Proof.Machine.execB2u16 s
  | .b2i16 => Sys2Proof.Machine.execB2i16 s
  | .b2u32 => Sys2Proof.Machine.execB2u32 s
  | .b2i32 => Sys2Proof.Machine.execB2i32 s
  | .b2f32 => Sys2Proof.Machine.execB2f32 s
  | .u16tob => Sys2Proof.Machine.execU16tob s
  | .i16tob => Sys2Proof.Machine.execI16tob s
  | .u32tob => Sys2Proof.Machine.execU32tob s
  | .i32tob => Sys2Proof.Machine.execI32tob s
  | .f32tob => Sys2Proof.Machine.execF32tob s
  | .copy len => Sys2Proof.Machine.execCopy len s
  | .truncpad w len => Sys2Proof.Machine.execTruncpad w len s
  | .crcgen len => Sys2Proof.Machine.execCrcgen len s
  | .crcchk len => Sys2Proof.Machine.execCrcchk len s

end Sys2Proof.Machine
end

