-- ==== Sys2Proof/Machine/Interact.lean ====
section
/-! DEFINITION. The host interactions (R37), each one atomic step: register and memory access (R38, R41), the request (R122) and
Reset (R140). -/

namespace Sys2Proof.Machine

/-- `Request(D)` of R122: CMD is stored, an illegal descriptor raises IllegalRequest (R73), a legal one runs its operation. -/
def runRequest (d : Word) (s : State) : Host.Outcome State Fault Refusal :=
  match decode d with
  | .error _ => .next ((s.setCmd d).raise .illegalRequest)
  | .ok i => exec i (s.setCmd d)

/-- `RegWrite(n, v)` of R38: a write of CMD is a request. -/
def regWrite (n : Fin 8) (v : Word) (s : State) : Host.Outcome State Fault Refusal :=
  match RegName.ofNumber n with
  | .reserved => .fault .reservedRegister
  | .cmd => runRequest v s
  | r => .next (s.hostWrite r v)

/-- `RegRead(n)` of R38: the value goes back to the host; nothing of the block changes. -/
def regRead (n : Fin 8) (s : State) : Host.Outcome State Fault Refusal :=
  match s.readReg (RegName.ofNumber n) with
  | .error f => .fault f
  | .ok v => .next (s.reply (.word v))

/-- `MemWrite(a, b)` of R41. -/
def memWrite (a : Word) (b : Byte) (s : State) : Host.Outcome State Fault Refusal :=
  if s.memBytes ≤ a.toNat then .fault (.hostOutOfRange a.toNat) else .next (s.store a.toNat [b])

/-- `MemRead(a)` of R41. -/
def memRead (a : Word) (s : State) : Host.Outcome State Fault Refusal :=
  if s.memBytes ≤ a.toNat then .fault (.hostOutOfRange a.toNat)
  else
    match s.mem.get a.toNat with
    | none => .fault (.unwrittenMemory a.toNat)
    | some b => .next (s.reply (.byte b))

/-- One interaction of the host (R37). -/
def interact (x : Interaction) (s : State) : Host.Outcome State Fault Refusal :=
  match x with
  | .regWrite n v => regWrite n v s
  | .regRead n => regRead n s
  | .memWrite a b => memWrite a b s
  | .memRead a => memRead a s
  | .reset => .next s.hostReset

/-- The state an interaction that faults leaves behind: the fault mark is set and nothing else changes, but the CMD write of a
request stands (R122, R127). -/
def afterFault (x : Interaction) (s : State) : State :=
  match x with
  | .regWrite n v => if RegName.ofNumber n = .cmd then (s.setCmd v).markFault else s.markFault
  | _ => s.markFault

/-- The host's next interaction, if it has one: with none the block stays idle, since it "never starts a step on its own" (R20,
R141; log entry 5). A state whose fault mark is set has no further step (R40). -/
def hostStep (s : State) : Host.Outcome State Fault Refusal :=
  if s.faultMark then .refused .faultMarkSet
  else
    match s.pending with
    | [] => .next s
    | x :: rest => interact x (s.setPending rest)

/-- The host's next interaction is the write of `d` to CMD, before whatever else it has to do. -/
def placeRequest (d : Word) (s : State) : State :=
  s.setPending (.regWrite RegName.cmd.number d :: s.pending)

end Sys2Proof.Machine
end

