-- ==== Sys2Proof/Machine/Step.lean ====
section
/-! DEFINITION. One step of the model: one interaction of the host with the block (R37, R55). -/

namespace Sys2Proof.Machine

def step (s : State) : Host.Outcome State Fault Refusal := hostStep s

/-- The block fetches nothing (R34): its next instruction is the descriptor the host writes to CMD next, so that is where the
word is placed (log entry 3). Bits from `nbits` up are 0. -/
def State.withFetchWord (s : State) (nbits w : Nat) : State := placeRequest (BitVec.ofNat 32 (w % 2 ^ nbits)) s

end Sys2Proof.Machine
end

