-- ==== Sys2Proof/Machine/Asm.lean ====
section
/-! DEFINITION. The assembler syntax (R77 to R79): what host interactions a line stands for. A line is given as its words, cut at blanks
and commas (log entry 7). The assembler is the host's tool; no step uses it. -/

namespace Sys2Proof.Machine

/-- One word of a line: a mnemonic or register name, or a number. -/
inductive Token where
  | name (s : String)
  | num (n : Nat)
  deriving DecidableEq, Repr

/-- The value of a digit in the given base. -/
def digit (base : Nat) (c : Char) : Option Nat :=
  let n := c.toNat
  let v := if 48 ≤ n ∧ n ≤ 57 then n - 48 else if 65 ≤ n ∧ n ≤ 70 then n - 55 else if 97 ≤ n ∧ n ≤ 102 then n - 87 else 16
  if v < base then some v else none

/-- The value of a run of digits after those already read. -/
def digits (base : Nat) : List Char → Nat → Option Nat
  | [], acc => some acc
  | c :: cs, acc =>
    match digit base c with
    | none => none
    | some v => digits base cs (base * acc + v)

/-- "decimal or `0x` numbers" (R77). -/
def numeral : List Char → Option Nat
  | [] => none
  | '0' :: 'x' :: [] => none
  | '0' :: 'x' :: c :: cs => digits 16 (c :: cs) 0
  | c :: cs => digits 10 (c :: cs) 0

/-- The register names of R78. -/
def regNumber (name : String) : Option (Fin 8) :=
  if name = "CMD" then some 0
  else if name = "SRC" then some 1
  else if name = "DST" then some 2
  else if name = "VALUE" then some 3
  else if name = "EXPECT" then some 4
  else if name = "RESULT" then some 5
  else if name = "STATUS" then some 6
  else none

/-- A request line is one write of CMD (R77). -/
def requestLine (i : Instr) : List Interaction := [.regWrite RegName.cmd.number (encode i)]

/-- The mnemonics that take no operand (R77). -/
def fixedMnemonic (m : String) : Option Instr :=
  if m = "B2U16" then some .b2u16
  else if m = "B2I16" then some .b2i16
  else if m = "B2U32" then some .b2u32
  else if m = "B2I32" then some .b2i32
  else if m = "B2F32" then some .b2f32
  else if m = "U16TOB" then some .u16tob
  else if m = "I16TOB" then some .i16tob
  else if m = "U32TOB" then some .u32tob
  else if m = "I32TOB" then some .i32tob
  else if m = "F32TOB" then some .f32tob
  else none

/-- A length operand: refused outside 0 to 65535 (R77). -/
def lenOperand (n : Nat) : Option (BitVec 16) := if n < 65536 then some (BitVec.ofNat 16 n) else none

/-- A width operand: refused outside 1, 2, 4, 8 (R77). -/
def widthOperand (n : Nat) : Option (BitVec 4) :=
  if n = 1 ∨ n = 2 ∨ n = 4 ∨ n = 8 then some (BitVec.ofNat 4 n) else none

/-- A register value or an address; refused when it does not fit 32 bits (log entry 7). -/
def wordOperand (n : Nat) : Option Word := if n < 4294967296 then some (BitVec.ofNat 32 n) else none

/-- A byte operand; refused when it does not fit 8 bits (log entry 7). -/
def byteOperand (n : Nat) : Option Byte := if n < 256 then some (BitVec.ofNat 8 n) else none

/-- `MW a, b0, b1, ...` (R79): consecutive byte writes. -/
def writeBytes : Nat → List Token → Option (List Interaction)
  | _, [] => some []
  | a, .num b :: rest => do
    let w ← wordOperand a
    let x ← byteOperand b
    let more ← writeBytes (a + 1) rest
    return .memWrite w x :: more
  | _, .name _ :: _ => none

/-- `MR a, n` (R79): consecutive byte reads. DESIGN CHOICE (log entry 14): with n = 0, which the listed expansion does not speak of, no
read, and `a` is not looked at. -/
def readBytes : Nat → Nat → Option (List Interaction)
  | _, 0 => some []
  | a, n + 1 => do
    let w ← wordOperand a
    let more ← readBytes (a + 1) n
    return .memRead w :: more

/-- The lines with a name and one number (R77 to R79). -/
def assembleUnary (m : String) (a : Nat) : Option (List Interaction) :=
  if m = "COPY" then (lenOperand a).map fun len => requestLine (.copy len)
  else if m = "CRCGEN" then (lenOperand a).map fun len => requestLine (.crcgen len)
  else if m = "CRCCHK" then (lenOperand a).map fun len => requestLine (.crcchk len)
  else if m = "MR" then readBytes a 1
  else if m = "GET16" then
    (wordOperand a).map fun w =>
      .regWrite RegName.src.number w :: requestLine .b2u16 ++ [.regRead RegName.result.number]
  else if m = "CRC2" then (wordOperand a).map fun w => .regWrite RegName.src.number w :: requestLine (.crcgen 2#16)
  else none

/-- The lines with a name and two numbers (R77 to R79). -/
def assembleBinary (m : String) (a b : Nat) : Option (List Interaction) :=
  if m = "TRUNCPAD" then do
    let w ← widthOperand a
    let len ← lenOperand b
    return requestLine (.truncpad w len)
  else if m = "MR" then readBytes a b
  else if m = "PUT16" then do
    let w ← wordOperand a
    let v ← wordOperand b
    return .regWrite RegName.dst.number w :: .regWrite RegName.value.number v :: requestLine .u16tob
  else if m = "MW" then writeBytes a [.num b]
  else none

/-- What a line stands for, or `none` where the assembler refuses it (R77 to R79). -/
def assemble : List Token → Option (List Interaction)
  | [.name m] => if m = "RESET" then some [.reset] else (fixedMnemonic m).map requestLine
  | [.name m, .name r] => if m = "RD" then (regNumber r).map fun n => [.regRead n] else none
  | [.name m, .num a] => assembleUnary m a
  | [.name m, .name r, .num v] =>
    if m = "WR" then do
      let n ← regNumber r
      let w ← wordOperand v
      return [.regWrite n w]
    else none
  | [.name m, .num a, .num b] => assembleBinary m a b
  | .name m :: .num a :: rest => if m = "MW" then writeBytes a rest else none
  | _ => none

end Sys2Proof.Machine
end

