-- ==== Sys2Proof/Safety.lean ====
section
/-! DEFINITION. What claims speak of: the legal states (an invariant every step keeps), runs and their good final states (R148), and
the footprint table of R75. -/

namespace Sys2Proof.Machine

/-- A register that is unwritten has the reset value beside its mark, so that equal block states are equal data (log entry 1). -/
def Reg.canonical (x : Reg) : Prop := x.written = true ∨ x = Reg.unwritten

/-- The legal states of the block. -/
structure State.Inv (s : State) : Prop where
  /-- The memory is in its canonical form. -/
  memWf : s.mem.wf = true
  /-- Only addresses 0 to MEM_BYTES - 1 exist (R46). -/
  memInRange : ∀ a b, s.mem.get a = some b → a < s.memBytes
  /-- EXPECT[31:8] are hardwired 0 (R27). -/
  expectHigh : s.expect.val.extractLsb' 8 24 = 0#24
  /-- STATUS is `zext_32` of an error code: bits 31:4 are 0, and codes 4 to 15 are never written (R29, R120). -/
  statusCode : ∃ e : ErrCode, s.status = statusWord e
  /-- Unwritten registers are as reset leaves them (R30). -/
  regs : s.src.canonical ∧ s.dst.canonical ∧ s.value.canonical ∧ s.expect.canonical ∧ s.result.canonical
  /-- A step's successor never carries the fault mark: it is set only where there is no successor (R40, R127). -/
  noFault : s.faultMark = false

/-- The model's transition as R122 and R127 describe it, faulted states included: a step that faults leaves the marked state; a
marked state stays as it is. -/
def State.advance (s : State) : State :=
  match step s with
  | .next t => t
  | .fault _ =>
    match s.pending with
    | [] => s.markFault
    | x :: rest => afterFault x (s.setPending rest)
  | .refused _ => s

/-- A run (R148): the state after Reset of a block whose memory ends at `top`, with the host's finite sequence before it. -/
def State.start (top : Word) (xs : List Interaction) : State := { State.resetWith top with pending := xs }

/-- The outcome of a run: one step for each interaction, stopping where one faults (R148). -/
def runAll (top : Word) (xs : List Interaction) : Host.Outcome State Fault Refusal :=
  Host.Core.run Sys2Proof.core xs.length (State.start top xs)

/-- A final state is good exactly when the fault mark is clear (R148). -/
def State.good (s : State) : Prop := s.faultMark = false

/-- The columns of R75: the operand registers in the order of the operation's rule, and the lengths of the source and destination
ranges. -/
structure Footprint where
  regs : List RegName
  srcLen : Nat
  dstLen : Nat
  deriving DecidableEq, Repr

/-- The table of R75, with R22's "in the order of its rule" (R122). -/
def footprint : Instr → Footprint
  | .b2u16 | .b2i16 => ⟨[.src], 2, 0⟩
  | .b2u32 | .b2i32 | .b2f32 => ⟨[.src], 4, 0⟩
  | .u16tob | .i16tob => ⟨[.dst, .value], 0, 2⟩
  | .u32tob | .i32tob | .f32tob => ⟨[.dst, .value], 0, 4⟩
  | .copy len => ⟨[.src, .dst], len.toNat, len.toNat⟩
  | .truncpad w len => ⟨[.src, .dst], if len.toNat ≤ w.toNat then len.toNat else 0, w.toNat⟩
  | .crcgen len => ⟨[.src], len.toNat, 0⟩
  | .crcchk len => ⟨[.src, .expect], len.toNat, 0⟩

/-- The operations that write RESULT: the column "writes registers" of R75 (R28). -/
def writesResult : Instr → Bool
  | .b2u16 | .b2i16 | .b2u32 | .b2i32 | .b2f32 | .crcgen _ | .crcchk _ => true
  | .u16tob | .i16tob | .u32tob | .i32tob | .f32tob | .copy _ | .truncpad _ _ => false

/-! ### The words of the statements -/

/-- The register is in the written state (R30); CMD and STATUS always are. -/
def State.isWritten (s : State) : RegName → Bool
  | .cmd | .status => true
  | .src => s.src.written
  | .dst => s.dst.written
  | .value => s.value.written
  | .expect => s.expect.written
  | .result => s.result.written
  | .reserved => false

/-- `InBounds(a, n)` as R48 writes it. -/
abbrev State.Fits (s : State) (a : Word) (n : Nat) : Prop := n = 0 ∨ a.toNat + n ≤ s.memBytes

/-- `M[a], M[a+1], ...` are written and hold the bytes `bs`. -/
abbrev State.Holds (s : State) (a : Word) (bs : List Byte) : Prop :=
  ∀ k, k < bs.length → s.mem.get (a.toNat + k) = bs[k]?

/-- The byte `k` of the range at `a` is unwritten, and those below it are written (R50). -/
abbrev State.FirstUnwritten (s : State) (a : Word) (k : Nat) : Prop :=
  s.mem.get (a.toNat + k) = none ∧ ∀ j, j < k → (s.mem.get (a.toNat + j)).isSome = true

/-- The two byte ranges "share at least one byte" (R100). -/
def Shares (a : Word) (n : Nat) (b : Word) (m : Nat) : Prop :=
  ∃ x, a.toNat ≤ x ∧ x < a.toNat + n ∧ b.toNat ≤ x ∧ x < b.toNat + m

/-- The bytes of a memory outside the `n` bytes at `a` are those of another. -/
def SameOutside (m m' : Memory) (a : Word) (n : Nat) : Prop :=
  ∀ x, x < a.toNat ∨ a.toNat + n ≤ x → m'.get x = m.get x

end Sys2Proof.Machine
end

