-- ==== Sys2Proof/Certificates/Slice0/Obligations.lean ====
section
/-! DEFINITION. The statements for the provers, by family: encodings, the fourteen operations, the request, the host's interactions,
the whole machine, the laws of the conversions and of the CRC, the assembler. -/

namespace Sys2Proof.Machine

/-- What keeps an operation with the one operand register SRC from completing (R85; the checks of R113): nothing else changes but
STATUS on a raised error. -/
def SourceStops (i : Instr) (n : Nat) : Prop :=
  ∀ s : State,
    (s.src.written = false → exec i s = .fault (.unwrittenRegister .src)) ∧
    (s.src.written = true → ¬ s.Fits s.src.val n → exec i s = .next { s with status := 2#32 }) ∧
    (s.src.written = true → s.Fits s.src.val n → ∀ k, k < n → s.FirstUnwritten s.src.val k →
      exec i s = .fault (.unwrittenMemory (s.src.val.toNat + k)))

/-- What keeps an operation that writes `n` bytes of VALUE at DST from completing (R85): DST is checked before VALUE. -/
def StoreStops (i : Instr) (n : Nat) : Prop :=
  ∀ s : State,
    (s.dst.written = false → exec i s = .fault (.unwrittenRegister .dst)) ∧
    (s.dst.written = true → s.value.written = false → exec i s = .fault (.unwrittenRegister .value)) ∧
    (s.dst.written = true → s.value.written = true → ¬ s.Fits s.dst.val n → exec i s = .next { s with status := 2#32 })

/-- What keeps a copy of `n` source bytes to `m` destination bytes from completing (R101, R102). -/
def CopyStops (i : Instr) (n m : Nat) : Prop :=
  ∀ s : State,
    (s.src.written = false → exec i s = .fault (.unwrittenRegister .src)) ∧
    (s.src.written = true → s.dst.written = false → exec i s = .fault (.unwrittenRegister .dst)) ∧
    (s.src.written = true → s.dst.written = true →
      (¬ s.Fits s.src.val n ∨ ¬ s.Fits s.dst.val m → exec i s = .next { s with status := 2#32 }) ∧
      (s.Fits s.src.val n → s.Fits s.dst.val m →
        (Shares s.src.val n s.dst.val m → exec i s = .next { s with status := 3#32 }) ∧
        (¬ Shares s.src.val n s.dst.val m → ∀ k, k < n → s.FirstUnwritten s.src.val k →
          exec i s = .fault (.unwrittenMemory (s.src.val.toNat + k)))))

/-- The operation completes and puts the bytes `bs` at DST: RESULT and every other register keep their values but STATUS, which
becomes 0, and every other byte of memory reads as before. -/
def CompletesStoring (i : Instr) (s : State) (bs : List Byte) : Prop :=
  ∃ m, exec i s = .next { s with mem := m, status := 0#32 } ∧
    (∀ k, k < bs.length → m.get (s.dst.val.toNat + k) = bs[k]?) ∧ SameOutside s.mem m s.dst.val bs.length

/-- The legality predicate of R72, bit for bit. -/
def LegalR72 (d : Word) : Prop :=
  d.extractLsb' 12 4 = 0#4 ∧
    ((d.extractLsb' 0 8 ∈ [0x10#8, 0x11#8, 0x12#8, 0x13#8, 0x14#8, 0x20#8, 0x21#8, 0x22#8, 0x23#8, 0x24#8] ∧
        d.extractLsb' 8 4 = 0#4 ∧ d.extractLsb' 16 16 = 0#16) ∨
      (d.extractLsb' 0 8 ∈ [0x30#8, 0x40#8, 0x41#8] ∧ d.extractLsb' 8 4 = 0#4) ∨
      (d.extractLsb' 0 8 = 0x31#8 ∧ d.extractLsb' 8 4 ∈ [1#4, 2#4, 4#4, 8#4]))

/-- The table of R36. -/
def AfterResetTable (t : State) : Prop :=
  t.cmd = 0x00000000#32 ∧ t.status = 0x00000000#32 ∧
    (∀ r ∈ [RegName.src, .dst, .value, .expect, .result], t.isWritten r = false) ∧ ∀ x, t.mem.get x = none

/-- The running value of R112's byte-at-a-time form after its eight shifts of one byte. -/
def byteForm (c b : Byte) : Byte :=
  Nat.repeat (fun c => if c.getLsbD 7 then (c <<< 1) ^^^ 0x31#8 else c <<< 1) 8 (c ^^^ b)

/-- A byte sequence as a big-endian number. -/
def beNumber (bs : List Byte) : Nat := bs.foldl (fun v b => 256 * v + b.toNat) 0

/-- Two states give an operation the same explicit inputs (R2): the operand registers of its row of R75, the bytes of its source range
and MEM_BYTES. -/
def SameInputs (i : Instr) (s s' : State) : Prop :=
  s'.memTop = s.memTop ∧
    (∀ r ∈ (footprint i).regs, s'.readReg r = s.readReg r) ∧
    (∀ k, k < (footprint i).srcLen → s'.mem.get (s.src.val.toNat + k) = s.mem.get (s.src.val.toNat + k))

end Sys2Proof.Machine

open Sys2Proof Sys2Proof.Machine

/-! ### Encodings -/

/-- R66, R67, R76: no bit of an encoding is dropped. -/
def Obligations.DecodeOfEncodeIsTheOperation : Prop :=
  ∀ i : Instr, i.WellFormed → decode (encode i) = .ok i

/-- R72, R76: the decoder is total, accepts exactly the legal descriptors, and the encoder is its inverse on them. -/
def Obligations.DecoderAcceptsExactlyLegal : Prop :=
  (∀ d : Word, (LegalR72 d → ∃ i, decode d = .ok i ∧ i.WellFormed ∧ i.opcode = d.extractLsb' 0 8 ∧
      i.width = d.extractLsb' 8 4 ∧ i.length = d.extractLsb' 16 16 ∧ encode i = d) ∧
    (¬ LegalR72 d → ∃ e, decode d = .error e)) ∧
  ∀ (op : BitVec 8) (w : BitVec 4) (len : BitVec 16),
    encodeFields op w len = (len.setWidth 32 <<< 16) ||| (w.setWidth 32 <<< 8) ||| op.setWidth 32

/-- Words of 95_test_vectors.md section 2.5 and of the opcode table, written out from R66 and R67. The spec has the one verdict
'illegal' (R76): the names of the four reasons in the last four clauses are the model's choice (log entry 12). -/
def Obligations.WrittenWordsDecode : Prop :=
  decode 0b00000000000000000000000000010000#32 = .ok .b2u16 ∧
  decode 0b00000000000000000000000000100100#32 = .ok .f32tob ∧
  decode 0b11111111111111110000000000110000#32 = .ok (.copy 65535#16) ∧
  decode 0b00000000000000100000100000110001#32 = .ok (.truncpad 8#4 2#16) ∧
  decode 0b00000000000000100000000001000000#32 = .ok (.crcgen 2#16) ∧
  decode 0b00000000000000000000000000000000#32 = .error .reservedOp ∧
  decode 0b00000000000000000001000000010000#32 = .error .nonzeroRsv ∧
  decode 0b00000000000000010000000000100010#32 = .error .nonzeroLen ∧
  decode 0b00000000000000100000100100110001#32 = .error .illegalWidth

/-! ### Bytes to value -/

/-- R86. -/
def Obligations.B2u16LoadsZeroExtended : Prop :=
  decode 0x00000010#32 = .ok .b2u16 ∧ SourceStops .b2u16 2 ∧
  ∀ (s : State) (b0 b1 : Byte), s.src.written = true → s.Fits s.src.val 2 → s.Holds s.src.val [b0, b1] →
    exec .b2u16 s = .next { s with result := ⟨(b0 ++ b1).setWidth 32, true⟩, status := 0#32 }

/-- R87. -/
def Obligations.B2i16LoadsSignExtended : Prop :=
  decode 0x00000011#32 = .ok .b2i16 ∧ SourceStops .b2i16 2 ∧
  ∀ (s : State) (b0 b1 : Byte), s.src.written = true → s.Fits s.src.val 2 → s.Holds s.src.val [b0, b1] →
    exec .b2i16 s = .next { s with result := ⟨(b0 ++ b1).signExtend 32, true⟩, status := 0#32 }

/-- R88. -/
def Obligations.B2u32LoadsFourBytes : Prop :=
  decode 0x00000012#32 = .ok .b2u32 ∧ SourceStops .b2u32 4 ∧
  ∀ (s : State) (b0 b1 b2 b3 : Byte), s.src.written = true → s.Fits s.src.val 4 → s.Holds s.src.val [b0, b1, b2, b3] →
    exec .b2u32 s = .next { s with result := ⟨b0 ++ b1 ++ b2 ++ b3, true⟩, status := 0#32 }

/-- R89. -/
def Obligations.B2i32LoadsFourBytes : Prop :=
  decode 0x00000013#32 = .ok .b2i32 ∧ SourceStops .b2i32 4 ∧
  ∀ (s : State) (b0 b1 b2 b3 : Byte), s.src.written = true → s.Fits s.src.val 4 → s.Holds s.src.val [b0, b1, b2, b3] →
    exec .b2i32 s = .next { s with result := ⟨b0 ++ b1 ++ b2 ++ b3, true⟩, status := 0#32 }

/-- R90: every bit pattern comes through, NaNs and signed zeros included (R98). -/
def Obligations.B2f32LoadsExactBits : Prop :=
  decode 0x00000014#32 = .ok .b2f32 ∧ SourceStops .b2f32 4 ∧
  ∀ (s : State) (b0 b1 b2 b3 : Byte), s.src.written = true → s.Fits s.src.val 4 → s.Holds s.src.val [b0, b1, b2, b3] →
    exec .b2f32 s = .next { s with result := ⟨b0 ++ b1 ++ b2 ++ b3, true⟩, status := 0#32 }

/-! ### Value to bytes -/

/-- R91. -/
def Obligations.U16tobStoresLowHalf : Prop :=
  decode 0x00000020#32 = .ok .u16tob ∧ StoreStops .u16tob 2 ∧
  ∀ s : State, s.dst.written = true → s.value.written = true → s.Fits s.dst.val 2 →
    CompletesStoring .u16tob s [s.value.val.extractLsb' 8 8, s.value.val.extractLsb' 0 8]

/-- R92. -/
def Obligations.I16tobStoresLowHalf : Prop :=
  decode 0x00000021#32 = .ok .i16tob ∧ StoreStops .i16tob 2 ∧
  ∀ s : State, s.dst.written = true → s.value.written = true → s.Fits s.dst.val 2 →
    CompletesStoring .i16tob s [s.value.val.extractLsb' 8 8, s.value.val.extractLsb' 0 8]

/-- R93. -/
def Obligations.U32tobStoresBigEndian : Prop :=
  decode 0x00000022#32 = .ok .u32tob ∧ StoreStops .u32tob 4 ∧
  ∀ s : State, s.dst.written = true → s.value.written = true → s.Fits s.dst.val 4 →
    CompletesStoring .u32tob s [s.value.val.extractLsb' 24 8, s.value.val.extractLsb' 16 8,
      s.value.val.extractLsb' 8 8, s.value.val.extractLsb' 0 8]

/-- R94. -/
def Obligations.I32tobStoresBigEndian : Prop :=
  decode 0x00000023#32 = .ok .i32tob ∧ StoreStops .i32tob 4 ∧
  ∀ s : State, s.dst.written = true → s.value.written = true → s.Fits s.dst.val 4 →
    CompletesStoring .i32tob s [s.value.val.extractLsb' 24 8, s.value.val.extractLsb' 16 8,
      s.value.val.extractLsb' 8 8, s.value.val.extractLsb' 0 8]

/-- R95: the bits of VALUE, whatever float they are (R98). -/
def Obligations.F32tobStoresExactBits : Prop :=
  decode 0x00000024#32 = .ok .f32tob ∧ StoreStops .f32tob 4 ∧
  ∀ s : State, s.dst.written = true → s.value.written = true → s.Fits s.dst.val 4 →
    CompletesStoring .f32tob s [s.value.val.extractLsb' 24 8, s.value.val.extractLsb' 16 8,
      s.value.val.extractLsb' 8 8, s.value.val.extractLsb' 0 8]

/-! ### Copies -/

/-- R101. -/
def Obligations.CopyMovesBytesVerbatim : Prop :=
  ∀ len : BitVec 16,
    decode ((len.setWidth 32 <<< 16) ||| 0x30#32) = .ok (.copy len) ∧
    CopyStops (.copy len) len.toNat len.toNat ∧
    ∀ (s : State) (bs : List Byte), s.src.written = true → s.dst.written = true → bs.length = len.toNat →
      s.Fits s.src.val len.toNat → s.Fits s.dst.val len.toNat → ¬ Shares s.src.val len.toNat s.dst.val len.toNat →
      s.Holds s.src.val bs → CompletesStoring (.copy len) s bs

/-- R102, R103, R105: `n` is copyLen; the W - n lowest destination bytes are zero and the source bytes follow in order. With any
other W the descriptor is rejected and the request raises IllegalRequest, whatever the registers hold. -/
def Obligations.TruncpadCopiesOrZeroFills : Prop :=
  ∀ (w : BitVec 4) (len : BitVec 16) (n : Nat), n = (if len.toNat ≤ w.toNat then len.toNat else 0) →
    (w ∈ [1#4, 2#4, 4#4, 8#4] →
      decode ((len.setWidth 32 <<< 16) ||| (w.setWidth 32 <<< 8) ||| 0x31#32) = .ok (.truncpad w len) ∧
      CopyStops (.truncpad w len) n w.toNat ∧
      ∀ (s : State) (bs : List Byte), s.src.written = true → s.dst.written = true → bs.length = n →
        s.Fits s.src.val n → s.Fits s.dst.val w.toNat → ¬ Shares s.src.val n s.dst.val w.toNat → s.Holds s.src.val bs →
        CompletesStoring (.truncpad w len) s (List.replicate (w.toNat - n) 0x00#8 ++ bs)) ∧
    (w ∉ [1#4, 2#4, 4#4, 8#4] →
      (∃ e, decode ((len.setWidth 32 <<< 16) ||| (w.setWidth 32 <<< 8) ||| 0x31#32) = .error e) ∧
      ∀ s : State, runRequest ((len.setWidth 32 <<< 16) ||| (w.setWidth 32 <<< 8) ||| 0x31#32) s =
        .next { s with cmd := (len.setWidth 32 <<< 16) ||| (w.setWidth 32 <<< 8) ||| 0x31#32, status := 1#32 })

/-- The error of R102 for a W outside 1, 2, 4, 8, as a term of the syntax. No descriptor decodes to such a term (R69, R72); that exec
gives it the same IllegalRequest is the model's deduction (log entry 11). -/
def Obligations.TruncpadTermOfIllegalWidthRaises : Prop :=
  ∀ (w : BitVec 4) (len : BitVec 16), w ∉ [1#4, 2#4, 4#4, 8#4] →
    (∀ d : Word, decode d ≠ .ok (.truncpad w len)) ∧
    ∀ s : State, exec (.truncpad w len) s = .next { s with status := 1#32 }

/-- R100, of the range predicate the two copies use: the formula holds exactly when the ranges share a byte, and then each copy
raises OverlapError with no byte written. -/
def Obligations.OverlapMeansSharedByte : Prop :=
  (∀ (a b : Word) (n m : Nat),
    (overlap a.toNat n b.toNat m = true ↔ 0 < n ∧ 0 < m ∧ a.toNat < b.toNat + m ∧ b.toNat < a.toNat + n) ∧
    (overlap a.toNat n b.toNat m = true ↔ Shares a n b m)) ∧
  ∀ (s : State) (i : Instr), i.WellFormed → s.isWritten .src = true → s.isWritten .dst = true →
    (footprint i).regs = [.src, .dst] → s.Fits s.src.val (footprint i).srcLen → s.Fits s.dst.val (footprint i).dstLen →
    Shares s.src.val (footprint i).srcLen s.dst.val (footprint i).dstLen → exec i s = .next { s with status := 3#32 }

/-- R104: as a big-endian number, the W bytes at the destination are the source's number. -/
def Obligations.TruncpadKeepsTheNumber : Prop :=
  ∀ (w : BitVec 4) (len : BitVec 16) (s t : State) (bs ds : List Byte), len.toNat ≤ w.toNat →
    exec (.truncpad w len) s = .next t → t.status = 0#32 → bs.length = len.toNat → s.Holds s.src.val bs →
    ds.length = w.toNat → t.Holds s.dst.val ds → beNumber ds = beNumber bs

/-! ### CRC -/

/-- R113. -/
def Obligations.CrcgenWritesChecksum : Prop :=
  ∀ len : BitVec 16,
    decode ((len.setWidth 32 <<< 16) ||| 0x40#32) = .ok (.crcgen len) ∧ SourceStops (.crcgen len) len.toNat ∧
    ∀ (s : State) (bs : List Byte), s.src.written = true → s.Fits s.src.val len.toNat → bs.length = len.toNat →
      s.Holds s.src.val bs →
      exec (.crcgen len) s = .next { s with result := ⟨(crc8 bs).setWidth 32, true⟩, status := 0#32 }

/-- R114. -/
def Obligations.CrcchkWritesMatch : Prop :=
  ∀ len : BitVec 16,
    decode ((len.setWidth 32 <<< 16) ||| 0x41#32) = .ok (.crcchk len) ∧
    ∀ s : State,
      (s.src.written = false → exec (.crcchk len) s = .fault (.unwrittenRegister .src)) ∧
      (s.src.written = true → s.expect.written = false → exec (.crcchk len) s = .fault (.unwrittenRegister .expect)) ∧
      (s.src.written = true → s.expect.written = true →
        (¬ s.Fits s.src.val len.toNat → exec (.crcchk len) s = .next { s with status := 2#32 }) ∧
        (s.Fits s.src.val len.toNat →
          (∀ k, k < len.toNat → s.FirstUnwritten s.src.val k →
            exec (.crcchk len) s = .fault (.unwrittenMemory (s.src.val.toNat + k))) ∧
          ∀ bs : List Byte, bs.length = len.toNat → s.Holds s.src.val bs →
            (crc8 bs = s.expect.val.extractLsb' 0 8 →
              exec (.crcchk len) s = .next { s with result := ⟨1#32, true⟩, status := 0#32 }) ∧
            (crc8 bs ≠ s.expect.val.extractLsb' 0 8 →
              exec (.crcchk len) s = .next { s with result := ⟨0#32, true⟩, status := 0#32 })))

/-- R112. -/
def Obligations.CrcByteFormAgrees : Prop :=
  ∀ bs : List Byte, crc8 bs = bs.foldl byteForm 0xFF#8

/-- R115: the empty run, the residue, a framed word, and that two words' checksums are not one over all four bytes. -/
def Obligations.CrcLaws : Prop :=
  crc8 [] = 0xFF#8 ∧
  (∀ bs : List Byte, crc8 (bs ++ [crc8 bs]) = 0x00#8) ∧
  (∀ (s : State) (a : Word) (v : Word), s.dst = ⟨a, true⟩ → s.src = ⟨a, true⟩ → s.value = ⟨v, true⟩ → s.Fits a 2 →
    ∃ t u, exec .u16tob s = .next t ∧ exec (.crcgen 2#16) t = .next u ∧
      u.result = ⟨(crc8 [v.extractLsb' 8 8, v.extractLsb' 0 8]).setWidth 32, true⟩) ∧
  ∃ b0 b1 b2 b3 : Byte, crc8 [b0, b1] ≠ crc8 [b0, b1, b2, b3] ∧ crc8 [b2, b3] ≠ crc8 [b0, b1, b2, b3]

/-! ### Laws of the conversions -/

/-- R96. -/
def Obligations.ConversionsRoundTrip : Prop :=
  ∀ (s : State) (a v : Word), s.dst = ⟨a, true⟩ → s.src = ⟨a, true⟩ → s.value = ⟨v, true⟩ →
    (s.Fits a 2 → ∀ i ∈ [Instr.u16tob, Instr.i16tob], ∃ t, exec i s = .next t ∧
      exec .b2u16 t = .next { t with result := ⟨(v.setWidth 16).setWidth 32, true⟩, status := 0#32 } ∧
      exec .b2i16 t = .next { t with result := ⟨(v.setWidth 16).signExtend 32, true⟩, status := 0#32 }) ∧
    (s.Fits a 4 → ∀ i ∈ [Instr.u32tob, Instr.i32tob, Instr.f32tob], ∀ j ∈ [Instr.b2u32, Instr.b2i32, Instr.b2f32],
      ∃ t, exec i s = .next t ∧ exec j t = .next { t with result := ⟨v, true⟩, status := 0#32 })

/-- R53. -/
def Obligations.HalvesOfStoredWord : Prop :=
  ∀ (s : State) (a b v : Word), s.dst = ⟨a, true⟩ → s.value = ⟨v, true⟩ → s.Fits a 4 → b.toNat = a.toNat + 2 →
    ∀ i ∈ [Instr.u32tob, Instr.i32tob, Instr.f32tob], ∃ t, exec i s = .next t ∧
      (∃ u, exec .b2u16 { t with src := ⟨a, true⟩ } = .next u ∧ u.result = ⟨(v.extractLsb' 16 16).setWidth 32, true⟩) ∧
      (∃ u, exec .b2u16 { t with src := ⟨b, true⟩ } = .next u ∧ u.result = ⟨(v.extractLsb' 0 16).setWidth 32, true⟩)

/-! ### The request -/

/-- R23, R122: when the host's next interaction is the write of a legal descriptor to CMD, the step stores it in CMD, takes the
interaction off the host's list and is exec of the decoded operation. -/
def Obligations.StepRunsTheDecodedOperation : Prop :=
  ∀ (s : State) (d : Word) (rest : List Interaction) (i : Instr), s.faultMark = false →
    s.pending = .regWrite 0 d :: rest → decode d = .ok i →
    i.WellFormed ∧ step s = exec i { s with cmd := d, pending := rest }

/-- R73: whatever the operand registers hold. -/
def Obligations.IllegalDescriptorRaises : Prop :=
  ∀ (s : State) (d : Word) (rest : List Interaction), s.faultMark = false → s.pending = .regWrite 0 d :: rest →
    ¬ LegalR72 d → step s = .next { s with cmd := d, pending := rest, status := 1#32 }

/-- R123, with the table of R75 (`footprint`). -/
def Obligations.ChecksRunInPriorityOrder : Prop :=
  (∀ (s : State) (d : Word), ¬ LegalR72 d → runRequest d s = .next { s with cmd := d, status := 1#32 }) ∧
  ∀ (s : State) (d : Word) (i : Instr) (n m : Nat), decode d = .ok i → n = (footprint i).srcLen → m = (footprint i).dstLen →
    (∀ before r after, (footprint i).regs = before ++ r :: after → (∀ q ∈ before, s.isWritten q = true) →
      s.isWritten r = false → runRequest d s = .fault (.unwrittenRegister r)) ∧
    ((∀ r ∈ (footprint i).regs, s.isWritten r = true) →
      (¬ s.Fits s.src.val n ∨ ¬ s.Fits s.dst.val m → runRequest d s = .next { s with cmd := d, status := 2#32 }) ∧
      (s.Fits s.src.val n → s.Fits s.dst.val m →
        (Shares s.src.val n s.dst.val m → runRequest d s = .next { s with cmd := d, status := 3#32 }) ∧
        (¬ Shares s.src.val n s.dst.val m →
          (∀ k, k < n → s.FirstUnwritten s.src.val k → runRequest d s = .fault (.unwrittenMemory (s.src.val.toNat + k))) ∧
          ((∀ k, k < n → (s.mem.get (s.src.val.toNat + k)).isSome = true) →
            ∃ t, runRequest d s = .next t ∧ t.status = 0#32))))

/-- R143: a request whose operand registers and source bytes have been written ends without a fault. -/
def Obligations.InitialisedRequestNeverFaults : Prop :=
  ∀ (s : State) (d : Word) (rest : List Interaction) (i : Instr), s.faultMark = false → s.pending = .regWrite 0 d :: rest →
    decode d = .ok i → (∀ r ∈ (footprint i).regs, s.isWritten r = true) →
    (∀ k, k < (footprint i).srcLen → (s.mem.get (s.src.val.toNat + k)).isSome = true) →
    ∃ t, step s = .next t

/-- R16, R55, R124: a request that does not complete leaves everything but CMD and STATUS as it was. -/
def Obligations.RaisedRequestHasNoPartialEffect : Prop :=
  ∀ (s t : State) (d : Word), runRequest d s = .next t → t.status ≠ 0#32 →
    t.status ∈ [1#32, 2#32, 3#32] ∧ t = { s with cmd := d, status := t.status }

/-- R2: the outcome depends on the operation's explicit inputs only. -/
def Obligations.OutcomeDependsOnExplicitInputs : Prop :=
  ∀ (i : Instr) (s s' : State), SameInputs i s s' →
    (∀ f, exec i s = .fault f → exec i s' = .fault f) ∧
    (∀ t, exec i s = .next t → ∃ t', exec i s' = .next t' ∧ t'.status = t.status ∧
      (t.status = 0#32 →
        (writesResult i = true → t'.result = t.result) ∧
        ∀ k, k < (footprint i).dstLen → t'.mem.get (s.dst.val.toNat + k) = t.mem.get (s.dst.val.toNat + k)))

/-! ### Frames -/

/-- R22, R28, R47: the frame of B2U16, B2I16, B2U32, B2I32, B2F32, CRCGEN and CRCCHK: only RESULT and STATUS can change, RESULT only
if the request completes; no byte of memory does. -/
def Obligations.FrameOfValueOperations : Prop :=
  ∀ (i : Instr) (s t : State), writesResult i = true → exec i s = .next t →
    t = { s with result := t.result, status := t.status } ∧ (t.status ≠ 0#32 → t.result = s.result) ∧
    ∀ x, t.mem.get x = s.mem.get x

/-- R22, R28, R47: the frame of U16TOB, I16TOB, U32TOB, I32TOB, F32TOB, COPY and TRUNCPAD: no register but STATUS, and no byte outside
the destination range of R75; no byte at all unless the request completes. -/
def Obligations.FrameOfStoringOperations : Prop :=
  ∀ (i : Instr) (s t : State), writesResult i = false → exec i s = .next t →
    t = { s with mem := t.mem, status := t.status } ∧ SameOutside s.mem t.mem s.dst.val (footprint i).dstLen ∧
    (t.status ≠ 0#32 → ∀ x, t.mem.get x = s.mem.get x)

/-! ### The host's interactions -/

/-- R38, with the write of CMD as the request of R122. -/
def Obligations.HostRegisterAccess : Prop :=
  ∀ (s : State) (v : Word) (rest : List Interaction), s.faultMark = false →
    (s.pending = .regWrite 7 v :: rest → step s = .fault .reservedRegister) ∧
    (s.pending = .regWrite 0 v :: rest → step s = runRequest v { s with pending := rest }) ∧
    (s.pending = .regWrite 1 v :: rest → step s = .next { s with src := ⟨v, true⟩, pending := rest }) ∧
    (s.pending = .regWrite 2 v :: rest → step s = .next { s with dst := ⟨v, true⟩, pending := rest }) ∧
    (s.pending = .regWrite 3 v :: rest → step s = .next { s with value := ⟨v, true⟩, pending := rest }) ∧
    (s.pending = .regWrite 4 v :: rest → step s = .next { s with expect := ⟨v &&& 0xFF#32, true⟩, pending := rest }) ∧
    (s.pending = .regWrite 5 v :: rest → step s = .next { s with pending := rest }) ∧
    (s.pending = .regWrite 6 v :: rest → step s = .next { s with pending := rest }) ∧
    (s.pending = .regRead 7 :: rest → step s = .fault .reservedRegister) ∧
    ∀ n : Fin 8, n ≠ 7 → s.pending = .regRead n :: rest →
      (s.isWritten (RegName.ofNumber n) = false → step s = .fault (.unwrittenRegister (RegName.ofNumber n))) ∧
      (s.isWritten (RegName.ofNumber n) = true → step s = .next { s with pending := rest, replies := s.replies ++ [.word
        ([s.cmd, s.src.val, s.dst.val, s.value.val, s.expect.val, s.result.val, s.status].getD n.val 0#32)] })

/-- R41. -/
def Obligations.HostMemoryAccess : Prop :=
  ∀ (s : State) (a : Word) (rest : List Interaction), s.faultMark = false →
    (∀ b, s.pending = .memWrite a b :: rest →
      (s.memBytes ≤ a.toNat → step s = .fault (.hostOutOfRange a.toNat)) ∧
      (a.toNat < s.memBytes → ∃ m, step s = .next { s with mem := m, pending := rest } ∧
        m.get a.toNat = some b ∧ SameOutside s.mem m a 1)) ∧
    (s.pending = .memRead a :: rest →
      (s.memBytes ≤ a.toNat → step s = .fault (.hostOutOfRange a.toNat)) ∧
      (a.toNat < s.memBytes → s.mem.get a.toNat = none → step s = .fault (.unwrittenMemory a.toNat)) ∧
      (∀ b, a.toNat < s.memBytes → s.mem.get a.toNat = some b →
        step s = .next { s with pending := rest, replies := s.replies ++ [.byte b] }))

/-- R36, R140: power-on, for a memory of any size, and Reset in any state. The values beside the unwritten marks are the model's
(log entry 1), so nothing is said of them. -/
def Obligations.ResetLeavesTheTable : Prop :=
  (∀ top : Word, AfterResetTable (State.resetWith top) ∧ (State.resetWith top).faultMark = false) ∧
  ∀ (s t : State) (rest : List Interaction), s.pending = .reset :: rest → step s = .next t →
    AfterResetTable t ∧ t.faultMark = s.faultMark ∧ t.memTop = s.memTop

/-- R140: Reset always takes place, in every state whose fault mark is clear. That what the host has been given back stays, and the
value 0 beside an unwritten mark, are the model's choices (log entries 1 and 4). -/
def Obligations.ResetCompletes : Prop :=
  ∀ (s : State) (rest : List Interaction), s.faultMark = false → s.pending = .reset :: rest →
    step s = .next { State.resetWith s.memTop with pending := rest, replies := s.replies }

/-- R27. -/
def Obligations.ExpectHoldsOneByte : Prop :=
  ∀ (s : State) (v : Word) (rest : List Interaction), s.faultMark = false →
    s.pending = .regWrite 4 v :: .regRead 4 :: rest →
    ∃ t u, step s = .next t ∧ step t = .next u ∧ t.expect.val.extractLsb' 8 24 = 0#24 ∧
      t.expect.val.extractLsb' 0 8 = v.extractLsb' 0 8 ∧ u.replies = s.replies ++ [.word ((v.extractLsb' 0 8).setWidth 32)]

/-- R23: a read of CMD after any request that does not fault returns the descriptor, legal or not; after Reset it returns 0. That
what the host was given before Reset is still there is the model's choice (log entry 4). -/
def Obligations.CmdReadsBackLastDescriptor : Prop :=
  (∀ (s t : State) (d : Word) (rest : List Interaction), s.pending = .regWrite 0 d :: .regRead 0 :: rest →
    step s = .next t → ∃ u, step t = .next u ∧ u.replies = s.replies ++ [.word d]) ∧
  ∀ (s : State) (rest : List Interaction), s.faultMark = false → s.pending = .reset :: .regRead 0 :: rest →
    ∃ t u, step s = .next t ∧ step t = .next u ∧ u.replies = s.replies ++ [.word 0x00000000#32]

/-- R29: the code the host reads in STATUS after a request, and that its write of STATUS has no effect. -/
def Obligations.StatusHoldsErrorCode : Prop :=
  (∀ (s t : State) (d : Word) (rest : List Interaction), s.pending = .regWrite 0 d :: .regRead 6 :: rest →
    step s = .next t → t.status.extractLsb' 4 28 = 0#28 ∧ t.err ∈ [0#4, 1#4, 2#4, 3#4] ∧
      ∃ u, step t = .next u ∧ u.replies = s.replies ++ [.word (t.err.setWidth 32)]) ∧
  ∀ (s : State) (v : Word) (rest : List Interaction), s.faultMark = false → s.pending = .regWrite 6 v :: rest →
    step s = .next { s with pending := rest }

/-- R20, R141: with no interaction left the block stays as it is. That the step then answers a next state is the model's choice (log
entry 5). -/
def Obligations.BlockNeverStartsAStep : Prop :=
  ∀ s t : State, s.pending = [] → step s = .next t → t = s

/-! ### The whole machine -/

/-- R27, R29, R30, R46, R120. -/
def Obligations.StepKeepsLegalStates : Prop :=
  ∀ s t : State, s.Inv → step s = .next t → t.Inv

/-- R36, R140: for a memory of any size. That the value beside an unwritten mark is 0 (`canonical`, and EXPECT's high bits while it is
unwritten) is the model's choice (log entry 1). -/
def Obligations.ResetIsLegal : Prop :=
  (∀ top : Word, (State.resetWith top).Inv) ∧ State.reset.Inv

/-- R6, R42: MEM_BYTES is between 1 and 2^32 and no step changes it. -/
def Obligations.MemorySizeIsFixed : Prop :=
  ∀ s t : State, step s = .next t → t.memBytes = s.memBytes ∧ 1 ≤ t.memBytes ∧ t.memBytes ≤ 2 ^ 32

/-- R127: each fault, only where the table says. (That it faults there: `ChecksRunInPriorityOrder`, `HostRegisterAccess` and
`HostMemoryAccess`.) -/
def Obligations.FaultsOnlyWhereTheTableSays : Prop :=
  ∀ (s : State) (f : Fault), step s = .fault f →
    match f with
    | .unwrittenRegister r => s.isWritten r = false ∧ r ∈ [RegName.src, .dst, .value, .expect, .result] ∧
        ((∃ n, s.pending.head? = some (.regRead n) ∧ RegName.ofNumber n = r) ∨
          ∃ d i, s.pending.head? = some (.regWrite 0 d) ∧ decode d = .ok i ∧ r ∈ (footprint i).regs)
    | .unwrittenMemory x => x < s.memBytes ∧ s.mem.get x = none ∧
        ((∃ a, s.pending.head? = some (.memRead a) ∧ a.toNat = x) ∨
          ∃ d i, s.pending.head? = some (.regWrite 0 d) ∧ decode d = .ok i ∧
            s.src.val.toNat ≤ x ∧ x < s.src.val.toNat + (footprint i).srcLen)
    | .reservedRegister => s.pending.head? = some (.regRead 7) ∨ ∃ v, s.pending.head? = some (.regWrite 7 v)
    | .hostOutOfRange x => s.memBytes ≤ x ∧
        ((∃ a b, s.pending.head? = some (.memWrite a b) ∧ a.toNat = x) ∨
          ∃ a, s.pending.head? = some (.memRead a) ∧ a.toNat = x)

/-- R40: a marked state has no further step, Reset included (R128). That `step` says so by the refusal faultMarkSet, and refuses
nothing else, is the model's deduction (log entry 6). -/
def Obligations.OnlyMarkedStatesAreRefused : Prop :=
  ∀ (s : State) (r : Refusal), step s = .refused r ↔ r = .faultMarkSet ∧ s.faultMark = true

/-- R122, R127, R128: a fault sets the mark and changes nothing else but CMD, which holds the request's descriptor; the mark then
stays. That `State.advance` gives this marked state, and that the interaction that faulted is off the host's list in it, is the
model's deduction (log entry 6). -/
def Obligations.FaultSetsStickyMark : Prop :=
  (∀ (s : State) (f : Fault), step s = .fault f →
    s.advance.faultMark = true ∧
    s.advance = { s with cmd := s.advance.cmd, pending := s.pending.tail, faultMark := true } ∧
    (∀ d, s.pending.head? = some (.regWrite 0 d) → s.advance.cmd = d) ∧
    ((∀ d, s.pending.head? ≠ some (.regWrite 0 d)) → s.advance.cmd = s.cmd)) ∧
  ∀ s : State, s.faultMark = true → s.advance = s

/-- R37, R60: a step is the effect of the host's first interaction, on a state that is all earlier ones left; whatever it changes, it
leaves exactly the others to be made, and the host gets one value back from a read and none from anything else. That Reset keeps
what the host has been given back is the model's choice (log entry 4). -/
def Obligations.InteractionsTakeEffectInOrder : Prop :=
  ∀ (s : State) (x : Interaction) (rest : List Interaction), s.faultMark = false → s.pending = x :: rest →
    step s = interact x { s with pending := rest } ∧
    ∀ t, step s = .next t → t.pending = rest ∧
      match x with
      | .regRead _ => ∃ v, t.replies = s.replies ++ [.word v]
      | .memRead _ => ∃ b, t.replies = s.replies ++ [.byte b]
      | .regWrite _ _ | .memWrite _ _ | .reset => t.replies = s.replies

/-- R30, R50: nothing but Reset makes a register or a byte of memory unwritten again. -/
def Obligations.OnlyResetUnwrites : Prop :=
  ∀ s t : State, s.pending.head? ≠ some .reset → step s = .next t →
    (∀ r, s.isWritten r = true → t.isWritten r = true) ∧
    ∀ x, (s.mem.get x).isSome = true → (t.mem.get x).isSome = true

/-- R22, R23, R28, R29, R144: only the host's own write of an operand register changes it, and only a request changes CMD, RESULT or
STATUS, Reset apart; a request leaves its descriptor in CMD. -/
def Obligations.RegistersChangeOnlyByHostWrite : Prop :=
  ∀ s t : State, s.pending.head? ≠ some .reset → step s = .next t →
    ((∀ v, s.pending.head? ≠ some (.regWrite 1 v)) → t.src = s.src) ∧
    ((∀ v, s.pending.head? ≠ some (.regWrite 2 v)) → t.dst = s.dst) ∧
    ((∀ v, s.pending.head? ≠ some (.regWrite 3 v)) → t.value = s.value) ∧
    ((∀ v, s.pending.head? ≠ some (.regWrite 4 v)) → t.expect = s.expect) ∧
    ((∀ v, s.pending.head? ≠ some (.regWrite 0 v)) →
      t.cmd = s.cmd ∧ t.result = s.result ∧ t.status = s.status) ∧
    ∀ d, s.pending.head? = some (.regWrite 0 d) → t.cmd = d

/-- R148: a run ends in a good final state after its last interaction, or it has none because an interaction faulted; a run that
faults faults whatever would have followed. -/
def Obligations.RunsEndGoodOrFault : Prop :=
  ∀ (top : Word) (xs : List Interaction),
    ((∃ t, runAll top xs = .next t ∧ t.good ∧ t.pending = []) ∨ ∃ f, runAll top xs = .fault f) ∧
    ∀ ys f, runAll top xs = .fault f → runAll top (xs ++ ys) = .fault f

/-! ### The assembler -/

/-- R77. -/
def Obligations.RequestLinesAssemble : Prop :=
  (∀ p ∈ [("B2U16", 0x10#8), ("B2I16", 0x11#8), ("B2U32", 0x12#8), ("B2I32", 0x13#8), ("B2F32", 0x14#8),
      ("U16TOB", 0x20#8), ("I16TOB", 0x21#8), ("U32TOB", 0x22#8), ("I32TOB", 0x23#8), ("F32TOB", 0x24#8)],
    assemble [.name p.1] = some [.regWrite 0 (encodeFields p.2 0#4 0#16)]) ∧
  (∀ p ∈ [("COPY", 0x30#8), ("CRCGEN", 0x40#8), ("CRCCHK", 0x41#8)], ∀ len : Nat,
    (len ≤ 65535 → assemble [.name p.1, .num len] = some [.regWrite 0 (encodeFields p.2 0#4 (BitVec.ofNat 16 len))]) ∧
    (65535 < len → assemble [.name p.1, .num len] = none)) ∧
  ∀ w len : Nat,
    ((w = 1 ∨ w = 2 ∨ w = 4 ∨ w = 8) ∧ len ≤ 65535 → assemble [.name "TRUNCPAD", .num w, .num len] =
      some [.regWrite 0 (encodeFields 0x31#8 (BitVec.ofNat 4 w) (BitVec.ofNat 16 len))]) ∧
    (¬ ((w = 1 ∨ w = 2 ∨ w = 4 ∨ w = 8) ∧ len ≤ 65535) → assemble [.name "TRUNCPAD", .num w, .num len] = none)

/-- R79, for addresses and values that fit their widths (what the assembler does with others is the model's choice, log entry 7) and
at least one byte to read (log entry 14). -/
def Obligations.PseudoLinesExpand : Prop :=
  (∀ (a : Word) (b : Byte) (bs : List Byte), a.toNat + bs.length < 2 ^ 32 →
    assemble (.name "MW" :: .num a.toNat :: .num b.toNat :: bs.map fun x => .num x.toNat) =
      some (.memWrite a b :: bs.mapIdx fun k x => .memWrite (a + BitVec.ofNat 32 (k + 1)) x)) ∧
  (∀ (a : Word) (n : Nat), 0 < n → a.toNat + n ≤ 2 ^ 32 →
    assemble [.name "MR", .num a.toNat, .num n] = some ((List.range n).map fun k => .memRead (a + BitVec.ofNat 32 k))) ∧
  (∀ a : Word, assemble [.name "GET16", .num a.toNat] = some [.regWrite 1 a, .regWrite 0 0x00000010#32, .regRead 5]) ∧
  (∀ a v : Word, assemble [.name "PUT16", .num a.toNat, .num v.toNat] =
    some [.regWrite 2 a, .regWrite 3 v, .regWrite 0 0x00000020#32]) ∧
  ∀ a : Word, assemble [.name "CRC2", .num a.toNat] = some [.regWrite 1 a, .regWrite 0 0x00020040#32]

/-- Beside R79, whose listed expansion of `MR a, n` does not say what n = 0 is: no read, whatever a is. The model's choice (log
entry 14). -/
def Obligations.MrOfNoByteStandsForNoRead : Prop :=
  ∀ a : Nat, assemble [.name "MR", .num a, .num 0] = some []
end

