-- ==== Sys2Proof/Laws/Bytes.lean ====
section
/-! SUPPORT. The descriptor's fields (R66), byte order (R13, R51), and the CRC over a run (R110). -/

namespace Sys2Proof

theorem getLsbD_encodeFields (op : BitVec 8) (w : BitVec 4) (len : BitVec 16) (k : Nat) :
    (encodeFields op w len).getLsbD k =
      if k < 8 then op.getLsbD k else if k < 12 then w.getLsbD (k - 8) else if k < 16 then false else len.getLsbD (k - 16) := by
  have h1 : (encodeFields op w len).getLsbD k =
      if k < 8 then op.getLsbD k else (len ++ 0#4 ++ w).getLsbD (k - 8) := BitVec.getLsbD_append
  have h2 : (len ++ 0#4 ++ w).getLsbD (k - 8) =
      if k - 8 < 4 then w.getLsbD (k - 8) else (len ++ 0#4).getLsbD (k - 8 - 4) := BitVec.getLsbD_append
  have h3 : (len ++ 0#4).getLsbD (k - 8 - 4) =
      if k - 8 - 4 < 4 then (0#4).getLsbD (k - 8 - 4) else len.getLsbD (k - 8 - 4 - 4) := BitVec.getLsbD_append
  rw [h1, h2, h3]
  by_cases a : k < 8
  · simp [a]
  by_cases b : k < 12
  · simp [a, b, show k - 8 < 4 by omega]
  by_cases c : k < 16
  · simp [a, b, c, show ¬ k - 8 < 4 by omega, show k - 8 - 4 < 4 by omega]
  · simp [a, b, c, show ¬ k - 8 < 4 by omega, show ¬ k - 8 - 4 < 4 by omega, show k - 8 - 4 - 4 = k - 16 by omega]

@[simp] theorem opField_encodeFields (op : BitVec 8) (w : BitVec 4) (len : BitVec 16) :
    opField (encodeFields op w len) = op := by
  apply BitVec.eq_of_getLsbD_eq
  intro i hi
  simp [opField, getLsbD_encodeFields, hi]

@[simp] theorem wField_encodeFields (op : BitVec 8) (w : BitVec 4) (len : BitVec 16) :
    wField (encodeFields op w len) = w := by
  apply BitVec.eq_of_getLsbD_eq
  intro i hi
  simp [wField, getLsbD_encodeFields, hi, show ¬ 8 + i < 8 by omega, show 8 + i < 12 by omega]

@[simp] theorem rsvField_encodeFields (op : BitVec 8) (w : BitVec 4) (len : BitVec 16) :
    rsvField (encodeFields op w len) = 0#4 := by
  apply BitVec.eq_of_getLsbD_eq
  intro i hi
  simp [rsvField, getLsbD_encodeFields, hi, show ¬ 12 + i < 8 by omega, show ¬ 12 + i < 12 by omega, show 12 + i < 16 by omega]

@[simp] theorem lenField_encodeFields (op : BitVec 8) (w : BitVec 4) (len : BitVec 16) :
    lenField (encodeFields op w len) = len := by
  apply BitVec.eq_of_getLsbD_eq
  intro i hi
  simp [lenField, getLsbD_encodeFields, hi, show ¬ 16 + i < 8 by omega, show ¬ 16 + i < 12 by omega, show ¬ 16 + i < 16 by omega]

/-- A descriptor with RSV = 0 is its other three fields (R66). -/
theorem encodeFields_fields (d : Word) (h : rsvField d = 0#4) : encodeFields (opField d) (wField d) (lenField d) = d := by
  apply BitVec.eq_of_getLsbD_eq
  intro k hk
  have hr : 12 ≤ k → k < 16 → d.getLsbD k = false := fun h1 h2 => by
    have := congrArg (fun v : BitVec 4 => v.getLsbD (k - 12)) h
    simpa [rsvField, show k - 12 < 4 by omega, show 12 + (k - 12) = k by omega] using this
  rw [getLsbD_encodeFields]
  by_cases a : k < 8
  · simp [a, opField]
  by_cases b : k < 12
  · simp [a, b, wField, show k - 8 < 4 by omega, show 8 + (k - 8) = k by omega]
  by_cases c : k < 16
  · simp [a, b, c, hr (by omega) c]
  · simp [a, b, c, lenField, show k - 16 < 16 by omega, show 16 + (k - 16) = k by omega]

theorem fixedForm_ok_iff (i j : Instr) (d : Word) :
    fixedForm i d = .ok j ↔ wField d = 0#4 ∧ lenField d = 0#16 ∧ i = j := by
  unfold fixedForm; split <;> [skip; split] <;> simp_all

theorem runForm_ok_iff (mk : BitVec 16 → Instr) (j : Instr) (d : Word) :
    runForm mk d = .ok j ↔ wField d = 0#4 ∧ mk (lenField d) = j := by
  unfold runForm; split <;> simp_all

theorem padForm_ok_iff (j : Instr) (d : Word) :
    padForm d = .ok j ↔ legalWidth (wField d) = true ∧ .truncpad (wField d) (lenField d) = j := by
  unfold padForm; split <;> simp_all

/-- The ten fixed-width conversions (R71). -/
abbrev conversions : List Instr :=
  [.b2u16, .b2i16, .b2u32, .b2i32, .b2f32, .u16tob, .i16tob, .u32tob, .i32tob, .f32tob]

theorem opForm_fixed_all : ∀ op : BitVec 8,
    (match opForm op with
      | .fixed i => decide (i ∈ conversions) && decide (op = i.opcode)
      | .copy | .truncpad | .crcgen | .crcchk | .reserved => true) = true := by decide

/-- The operations an OP value can select with a fixed width, and its code (R67). -/
theorem opForm_fixed {op : BitVec 8} {i : Instr} (h : opForm op = .fixed i) : i ∈ conversions ∧ op = i.opcode := by
  have := opForm_fixed_all op
  rw [h] at this
  simpa only [Bool.and_eq_true, decide_eq_true_eq] using this

theorem opForm_copy_iff (op : BitVec 8) : opForm op = .copy ↔ op = 0x30#8 := by revert op; decide
theorem opForm_truncpad_iff (op : BitVec 8) : opForm op = .truncpad ↔ op = 0x31#8 := by revert op; decide
theorem opForm_crcgen_iff (op : BitVec 8) : opForm op = .crcgen ↔ op = 0x40#8 := by revert op; decide
theorem opForm_crcchk_iff (op : BitVec 8) : opForm op = .crcchk ↔ op = 0x41#8 := by revert op; decide

/-- Everything a legal descriptor can be (R72). -/
theorem decode_ok_cases {d : Word} {i : Instr} (h : decode d = .ok i) :
    rsvField d = 0#4 ∧
      ((i ∈ conversions ∧ opField d = i.opcode ∧ wField d = 0#4 ∧ lenField d = 0#16) ∨
        (opField d = 0x30#8 ∧ wField d = 0#4 ∧ i = .copy (lenField d)) ∨
        (opField d = 0x31#8 ∧ legalWidth (wField d) = true ∧ i = .truncpad (wField d) (lenField d)) ∨
        (opField d = 0x40#8 ∧ wField d = 0#4 ∧ i = .crcgen (lenField d)) ∨
        (opField d = 0x41#8 ∧ wField d = 0#4 ∧ i = .crcchk (lenField d))) := by
  unfold decode at h
  split at h
  · simp at h
  · rename_i hr
    refine ⟨by simpa using hr, ?_⟩
    split at h
    · rename_i j hj
      obtain ⟨h1, h2, rfl⟩ := (fixedForm_ok_iff _ _ _).1 h
      obtain ⟨h3, h4⟩ := opForm_fixed hj
      exact .inl ⟨h3, h4, h1, h2⟩
    · rename_i hj
      obtain ⟨h1, rfl⟩ := (runForm_ok_iff _ _ _).1 h
      exact .inr (.inl ⟨(opForm_copy_iff _).1 hj, h1, rfl⟩)
    · rename_i hj
      obtain ⟨h1, rfl⟩ := (padForm_ok_iff _ _).1 h
      exact .inr (.inr (.inl ⟨(opForm_truncpad_iff _).1 hj, h1, rfl⟩))
    · rename_i hj
      obtain ⟨h1, rfl⟩ := (runForm_ok_iff _ _ _).1 h
      exact .inr (.inr (.inr (.inl ⟨(opForm_crcgen_iff _).1 hj, h1, rfl⟩)))
    · rename_i hj
      obtain ⟨h1, rfl⟩ := (runForm_ok_iff _ _ _).1 h
      exact .inr (.inr (.inr (.inr ⟨(opForm_crcchk_iff _).1 hj, h1, rfl⟩)))
    · simp at h

namespace Machine

theorem bytes16_length (v : BitVec 16) : (bytes16 v).length = 2 := rfl
theorem bytes32_length (v : Word) : (bytes32 v).length = 4 := rfl

theorem getLsbD_two (b0 b1 : Byte) (k : Nat) :
    (b0 ++ b1 : BitVec 16).getLsbD k = if k < 8 then b1.getLsbD k else b0.getLsbD (k - 8) := BitVec.getLsbD_append

theorem getLsbD_four (b0 b1 b2 b3 : Byte) (k : Nat) :
    (b0 ++ b1 ++ b2 ++ b3 : BitVec 32).getLsbD k =
      if k < 8 then b3.getLsbD k else if k < 16 then b2.getLsbD (k - 8)
      else if k < 24 then b1.getLsbD (k - 16) else b0.getLsbD (k - 24) := by
  have h1 : (b0 ++ b1 ++ b2 ++ b3 : BitVec 32).getLsbD k =
      if k < 8 then b3.getLsbD k else (b0 ++ b1 ++ b2).getLsbD (k - 8) := BitVec.getLsbD_append
  have h2 : (b0 ++ b1 ++ b2).getLsbD (k - 8) =
      if k - 8 < 8 then b2.getLsbD (k - 8) else (b0 ++ b1).getLsbD (k - 8 - 8) := BitVec.getLsbD_append
  have h3 : (b0 ++ b1).getLsbD (k - 8 - 8) =
      if k - 8 - 8 < 8 then b1.getLsbD (k - 8 - 8) else b0.getLsbD (k - 8 - 8 - 8) := BitVec.getLsbD_append
  rw [h1, h2, h3]
  by_cases a : k < 8
  · simp [a]
  by_cases b : k < 16
  · simp [a, b, show k - 8 < 8 by omega]
  by_cases c : k < 24
  · simp [a, b, c, show ¬ k - 8 < 8 by omega, show k - 8 - 8 = k - 16 by omega, show k - 16 < 8 by omega]
  · simp [a, b, c, show ¬ k - 8 < 8 by omega, show ¬ k - 8 - 8 < 8 by omega, show k - 8 - 8 - 8 = k - 24 by omega]

/-- Two bytes read big-endian: `zext_32` of their concatenation (R13). -/
theorem bigEndian_two (b0 b1 : Byte) : bigEndian [b0, b1] = (b0 ++ b1 : BitVec 16).setWidth 32 := by
  apply BitVec.eq_of_getLsbD_eq
  intro k hk
  simp only [bigEndian, List.foldl, BitVec.getLsbD_or, BitVec.getLsbD_shiftLeft, BitVec.getLsbD_setWidth, getLsbD_two]
  by_cases a : k < 8
  · simp [a, hk]
  · have hb1 : b1.getLsbD k = false := BitVec.getLsbD_of_ge _ _ (by omega)
    by_cases b : k < 16
    · simp [a, hk, hb1, show k - 8 < 8 by omega, show k - 8 < 32 by omega]
    · have hb0 : b0.getLsbD (k - 8) = false := BitVec.getLsbD_of_ge _ _ (by omega)
      simp [a, hb1, hb0]

/-- Four bytes read big-endian: their concatenation (R13). -/
theorem bigEndian_four (b0 b1 b2 b3 : Byte) : bigEndian [b0, b1, b2, b3] = (b0 ++ b1 ++ b2 ++ b3 : BitVec 32) := by
  apply BitVec.eq_of_getLsbD_eq
  intro k hk
  simp only [bigEndian, List.foldl, BitVec.getLsbD_or, BitVec.getLsbD_shiftLeft, BitVec.getLsbD_setWidth, getLsbD_four]
  have ge : ∀ (b : Byte) j, 8 ≤ j → b.getLsbD j = false := fun b j h => BitVec.getLsbD_of_ge _ _ h
  by_cases a : k < 8
  · simp [a, hk]
  by_cases b : k < 16
  · simp [a, b, hk, ge b3 k (by omega), show k - 8 < 8 by omega, show k - 8 < 32 by omega]
  by_cases c : k < 24
  · simp [a, b, c, hk, ge b3 k (by omega), ge b2 (k - 8) (by omega), show ¬ k - 8 < 8 by omega,
      show k - 8 < 32 by omega, show k - 8 - 8 = k - 16 by omega, show k - 16 < 8 by omega, show k - 16 < 32 by omega]
  · simp [a, b, c, hk, ge b3 k (by omega), ge b2 (k - 8) (by omega), ge b1 (k - 16) (by omega), show ¬ k - 8 < 8 by omega,
      show k - 8 < 32 by omega, show k - 8 - 8 = k - 16 by omega, show ¬ k - 16 < 8 by omega, show k - 16 < 32 by omega,
      show k - 16 - 8 = k - 24 by omega, show k - 24 < 32 by omega]

theorem bytes32_append (v : Word) :
    (v.extractLsb' 24 8 ++ v.extractLsb' 16 8 ++ v.extractLsb' 8 8 ++ v.extractLsb' 0 8 : BitVec 32) = v := by
  apply BitVec.eq_of_getLsbD_eq
  intro k hk
  simp only [getLsbD_four, BitVec.getLsbD_extractLsb']
  by_cases a : k < 8
  · simp [a]
  by_cases b : k < 16
  · simp [a, b, show k - 8 < 8 by omega, show 8 + (k - 8) = k by omega]
  by_cases c : k < 24
  · simp [a, b, c, show k - 16 < 8 by omega, show 16 + (k - 16) = k by omega]
  · simp [a, b, c, show k - 24 < 8 by omega, show 24 + (k - 24) = k by omega]

theorem bytes16_append (v : BitVec 16) : (v.extractLsb' 8 8 ++ v.extractLsb' 0 8 : BitVec 16) = v := by
  apply BitVec.eq_of_getLsbD_eq
  intro k hk
  simp only [getLsbD_two, BitVec.getLsbD_extractLsb']
  by_cases a : k < 8
  · simp [a]
  · simp [a, show k - 8 < 8 by omega, show 8 + (k - 8) = k by omega]

/-- Reading back a 32-bit value's bytes (R96). -/
theorem bigEndian_bytes32 (v : Word) : bigEndian (bytes32 v) = v := by
  rw [bytes32, bigEndian_four, bytes32_append]

/-- Reading back a 16-bit value's bytes (R96). -/
theorem bigEndian_bytes16 (v : BitVec 16) : bigEndian (bytes16 v) = v.setWidth 32 := by
  rw [bytes16, bigEndian_two, bytes16_append]

@[simp] theorem crc8_nil : crc8 [] = 0xFF#8 := rfl

/-- One more byte at the end of a run (R110). -/
theorem crc8_append (bs cs : List Byte) : crc8 (bs ++ cs) = cs.foldl crcByte (crc8 bs) := by
  simp [crc8, List.foldl_append]

end Machine

end Sys2Proof
end

