-- ==== Sys2Proof/Laws/Memory.lean ====
section
/-! SUPPORT. What the memory operations do: reading after writing, and that every operation keeps the canonical form. -/

namespace Sys2Proof.Machine

@[simp] theorem get_nil (x : Nat) : Memory.get [] x = none := rfl

/-- A read returns the last byte written at that address, and a write leaves every other address alone (R57). -/
theorem get_set (m : Memory) (a x : Nat) (b : Byte) : (m.set a b).get x = if x = a then some b else m.get x := by
  induction m with
  | nil => by_cases h : a = x <;> simp [Memory.set, Memory.get, h, eq_comm]
  | cons c rest ih =>
    obtain ⟨k, y⟩ := c
    simp only [Memory.set]
    split
    · simp only [Memory.get, eq_comm]
    · split
      · rename_i h
        subst h
        simp only [Memory.get]
        by_cases hx : a = x
        · simp [hx]
        · simp [hx, Ne.symm hx]
      · simp only [Memory.get, ih]
        by_cases hk : k = x
        · simp [hk, show ¬ x = a by omega]
        · simp [hk]

@[simp] theorem get_set_self (m : Memory) (a : Nat) (b : Byte) : (m.set a b).get a = some b := by simp [get_set]

theorem get_set_other (m : Memory) {a x : Nat} (b : Byte) (h : x ≠ a) : (m.set a b).get x = m.get x := by
  simp [get_set, h]

/-- Reading one byte after writing a run (R15). -/
theorem get_writeRun (m : Memory) (a x : Nat) (bs : List Byte) :
    (m.writeRun a bs).get x = if a ≤ x ∧ x < a + bs.length then bs[x - a]? else m.get x := by
  induction bs generalizing m a with
  | nil => rw [if_neg (by simp)]; rfl
  | cons b bs ih =>
    rw [Memory.writeRun, ih, get_set]
    by_cases hx : x = a
    · subst hx
      simp
    · by_cases h : a + 1 ≤ x ∧ x < a + 1 + bs.length
      · have h2 : a ≤ x ∧ x < a + (b :: bs).length := by simp; omega
        have h3 : x - a = (x - (a + 1)) + 1 := by omega
        rw [if_pos h, if_pos h2, h3, List.getElem?_cons_succ]
      · have h2 : ¬ (a ≤ x ∧ x < a + (b :: bs).length) := by simp; omega
        rw [if_neg h, if_neg h2, if_neg hx]

/-- Outside the bytes of a run, a write leaves memory as it was. -/
theorem get_writeRun_outside (m : Memory) {a x : Nat} (bs : List Byte) (h : x < a ∨ a + bs.length ≤ x) :
    (m.writeRun a bs).get x = m.get x := by
  rw [get_writeRun, if_neg (by omega)]

/-- Every entry of a canonical memory above its head has a larger address. -/
theorem wf_cons_iff (k : Nat) (y : Byte) (m : Memory) :
    Memory.wf ((k, y) :: m) = true ↔ (∀ c ∈ m.head?, k < c.1) ∧ m.wf = true := by
  cases m with
  | nil => simp [Memory.wf]
  | cons c rest => obtain ⟨k', y'⟩ := c; simp [Memory.wf]

theorem head?_set (m : Memory) (a : Nat) (b : Byte) : ∀ c ∈ (m.set a b).head?, c.1 = a ∨ ∃ d ∈ m.head?, c.1 = d.1 := by
  cases m with
  | nil => simp [Memory.set]
  | cons d rest =>
    obtain ⟨k, y⟩ := d
    unfold Memory.set
    split <;> [skip; split] <;> simp

/-- Writing a byte keeps the canonical form. -/
theorem set_wf (m : Memory) (a : Nat) (b : Byte) (h : m.wf = true) : (m.set a b).wf = true := by
  induction m with
  | nil => rfl
  | cons c rest ih =>
    obtain ⟨k, y⟩ := c
    obtain ⟨h1, h2⟩ := (wf_cons_iff k y rest).1 h
    unfold Memory.set
    split
    · exact (wf_cons_iff a b _).2 ⟨by simpa using ‹a < k›, h⟩
    · split
      · rename_i hak
        subst hak
        exact (wf_cons_iff a b rest).2 ⟨h1, h2⟩
      · refine (wf_cons_iff k y _).2 ⟨fun c hc => ?_, ih h2⟩
        obtain h3 | ⟨d, hd, h3⟩ := head?_set rest a b c hc
        · omega
        · rw [h3]; exact h1 d hd

/-- Writing a run keeps the canonical form. -/
theorem writeRun_wf (m : Memory) (a : Nat) (bs : List Byte) (h : m.wf = true) : (m.writeRun a bs).wf = true := by
  induction bs generalizing m a with
  | nil => exact h
  | cons b bs ih => exact ih (m.set a b) (a + 1) (set_wf m a b h)

/-- Reset's memory has the canonical form. -/
theorem reset_mem_wf (top : Word) : (State.resetWith top).mem.wf = true := rfl

/-- When reading a run succeeds: the bytes are those stored, in order (R15). -/
theorem readRun_ok_iff (m : Memory) (a n : Nat) (bs : List Byte) :
    m.readRun a n = .ok bs ↔ bs.length = n ∧ ∀ i, i < n → m.get (a + i) = bs[i]? := by
  induction n generalizing a bs with
  | zero => cases bs <;> simp [Memory.readRun]
  | succ n ih =>
    unfold Memory.readRun
    have key : ∀ b cs, (m.get a = some b ∧ ∀ i, i < n → m.get (a + 1 + i) = cs[i]?) ↔
        ∀ i, i < n + 1 → m.get (a + i) = (b :: cs)[i]? := by
      intro b cs
      constructor
      · rintro ⟨h0, h1⟩ i hi
        cases i with
        | zero => simpa using h0
        | succ i =>
          have := h1 i (by omega)
          rw [show a + (i + 1) = a + 1 + i by omega]
          simpa using this
      · intro h
        refine ⟨by simpa using h 0 (by omega), fun i hi => ?_⟩
        have := h (i + 1) (by omega)
        rw [show a + (i + 1) = a + 1 + i by omega] at this
        simpa using this
    cases bs with
    | nil => split <;> [simp; (split <;> simp)]
    | cons b cs =>
      rw [← key b cs]
      split
      · rename_i h; simp [h]
      · rename_i b' h
        split
        · rename_i x hx
          have hne : ¬ (m.readRun (a + 1) n = .ok cs) := by rw [hx]; simp
          rw [ih] at hne
          simp only [List.length_cons, Nat.add_right_cancel_iff, reduceCtorEq, false_iff]
          exact fun hh => hne ⟨hh.1, hh.2.2⟩
        · rename_i ds hd
          simp only [Except.ok.injEq, List.cons.injEq, List.length_cons, Nat.add_right_cancel_iff, h, Option.some.injEq]
          constructor
          · rintro ⟨rfl, rfl⟩
            exact ⟨((ih _ _).1 hd).1, rfl, ((ih _ _).1 hd).2⟩
          · rintro ⟨h1, h2, h3⟩
            have := (ih (a + 1) cs).2 ⟨h1, h3⟩
            rw [hd] at this
            exact ⟨h2, by simpa using this⟩

/-- When reading a run fails: at its lowest unwritten address (R50, R122 step 5). -/
theorem readRun_error_iff (m : Memory) (a n x : Nat) :
    m.readRun a n = .error x ↔
      ∃ i, i < n ∧ x = a + i ∧ m.get (a + i) = none ∧ ∀ j, j < i → ∃ b, m.get (a + j) = some b := by
  induction n generalizing a with
  | zero => simp [Memory.readRun]
  | succ n ih =>
    unfold Memory.readRun
    split
    · rename_i h
      simp only [Except.error.injEq]
      constructor
      · rintro rfl
        exact ⟨0, by omega, by simp, by simpa using h, by simp⟩
      · rintro ⟨i, hi, rfl, h1, h2⟩
        cases i with
        | zero => simp
        | succ i =>
          obtain ⟨b, hb⟩ := h2 0 (by omega)
          simp [h] at hb
    · rename_i b h
      have shift : (∃ i, i < n ∧ x = a + 1 + i ∧ m.get (a + 1 + i) = none ∧ ∀ j, j < i → ∃ b, m.get (a + 1 + j) = some b) ↔
          ∃ i, i < n + 1 ∧ x = a + i ∧ m.get (a + i) = none ∧ ∀ j, j < i → ∃ b, m.get (a + j) = some b := by
        constructor
        · rintro ⟨i, hi, hx, h1, h2⟩
          refine ⟨i + 1, by omega, by omega, by rwa [show a + (i + 1) = a + 1 + i by omega], fun j hj => ?_⟩
          cases j with
          | zero => exact ⟨b, by simpa using h⟩
          | succ j =>
            rw [show a + (j + 1) = a + 1 + j by omega]
            exact h2 j (by omega)
        · rintro ⟨i, hi, hx, h1, h2⟩
          cases i with
          | zero => simp [h] at h1
          | succ i =>
            refine ⟨i, by omega, by omega, by rwa [show a + 1 + i = a + (i + 1) by omega], fun j hj => ?_⟩
            rw [show a + 1 + j = a + (j + 1) by omega]
            exact h2 (j + 1) (by omega)
      rw [← shift, ← ih]
      split <;> rename_i hh <;> simp [hh]

end Sys2Proof.Machine
end

