-- ==== Sys2Proof/Laws/PerInstr.lean ====
section
/-! SUPPORT. A statement for every operation as syntax, with one lemma per constructor: its descriptor is legal in R72's sense and its
four fields are the operation's own (R66 to R71). -/

namespace Sys2Proof.Laws.LegalDescriptor

/-- The descriptor of a well-formed operation is legal, and it holds the operation's OP, W and LEN with RSV zero. -/
def Statement (i : Instr) : Prop :=
  i.WellFormed → legal (encode i) = true ∧ opField (encode i) = i.opcode ∧ wField (encode i) = i.width ∧
    rsvField (encode i) = 0#4 ∧ lenField (encode i) = i.length

theorem fields (i : Instr) : opField (encode i) = i.opcode ∧ wField (encode i) = i.width ∧
    rsvField (encode i) = 0#4 ∧ lenField (encode i) = i.length := by
  simp [encode]

theorem of_legal {i : Instr} (h : i.WellFormed → legal (encode i) = true) : Statement i := fun hw => ⟨h hw, fields i⟩

theorem b2u16 : Statement .b2u16 := of_legal fun _ => by decide
theorem b2i16 : Statement .b2i16 := of_legal fun _ => by decide
theorem b2u32 : Statement .b2u32 := of_legal fun _ => by decide
theorem b2i32 : Statement .b2i32 := of_legal fun _ => by decide
theorem b2f32 : Statement .b2f32 := of_legal fun _ => by decide
theorem u16tob : Statement .u16tob := of_legal fun _ => by decide
theorem i16tob : Statement .i16tob := of_legal fun _ => by decide
theorem u32tob : Statement .u32tob := of_legal fun _ => by decide
theorem i32tob : Statement .i32tob := of_legal fun _ => by decide
theorem f32tob : Statement .f32tob := of_legal fun _ => by decide

theorem copy (len : BitVec 16) : Statement (.copy len) := of_legal fun _ => by
  simp [legal, encode, Instr.opcode, Instr.width]

theorem truncpad (w : BitVec 4) (len : BitVec 16) : Statement (.truncpad w len) := of_legal fun hw => by
  have h : legalWidth w = true := hw
  simpa [legal, encode, Instr.opcode, Instr.width, legalWidth, or_assoc] using h

theorem crcgen (len : BitVec 16) : Statement (.crcgen len) := of_legal fun _ => by
  simp [legal, encode, Instr.opcode, Instr.width]

theorem crcchk (len : BitVec 16) : Statement (.crcchk len) := of_legal fun _ => by
  simp [legal, encode, Instr.opcode, Instr.width]

end Sys2Proof.Laws.LegalDescriptor
end

