-- ==== Sys2Proof/Laws/State.lean ====
section
/-! SUPPORT. One lemma per field of State per update, each true by rfl, so that no proof unfolds a record update. -/

namespace Sys2Proof.Machine

variable (s : State)

/-! ### setCmd -/

@[simp] theorem setCmd_cmd (d : Word) : (s.setCmd d).cmd = d := rfl
@[simp] theorem setCmd_src (d : Word) : (s.setCmd d).src = s.src := rfl
@[simp] theorem setCmd_dst (d : Word) : (s.setCmd d).dst = s.dst := rfl
@[simp] theorem setCmd_value (d : Word) : (s.setCmd d).value = s.value := rfl
@[simp] theorem setCmd_expect (d : Word) : (s.setCmd d).expect = s.expect := rfl
@[simp] theorem setCmd_result (d : Word) : (s.setCmd d).result = s.result := rfl
@[simp] theorem setCmd_status (d : Word) : (s.setCmd d).status = s.status := rfl
@[simp] theorem setCmd_mem (d : Word) : (s.setCmd d).mem = s.mem := rfl
@[simp] theorem setCmd_memTop (d : Word) : (s.setCmd d).memTop = s.memTop := rfl
@[simp] theorem setCmd_faultMark (d : Word) : (s.setCmd d).faultMark = s.faultMark := rfl
@[simp] theorem setCmd_pending (d : Word) : (s.setCmd d).pending = s.pending := rfl
@[simp] theorem setCmd_replies (d : Word) : (s.setCmd d).replies = s.replies := rfl
@[simp] theorem setCmd_memBytes (d : Word) : (s.setCmd d).memBytes = s.memBytes := rfl

/-! ### setResult -/

@[simp] theorem setResult_cmd (v : Word) : (s.setResult v).cmd = s.cmd := rfl
@[simp] theorem setResult_src (v : Word) : (s.setResult v).src = s.src := rfl
@[simp] theorem setResult_dst (v : Word) : (s.setResult v).dst = s.dst := rfl
@[simp] theorem setResult_value (v : Word) : (s.setResult v).value = s.value := rfl
@[simp] theorem setResult_expect (v : Word) : (s.setResult v).expect = s.expect := rfl
@[simp] theorem setResult_result (v : Word) : (s.setResult v).result = Reg.holding v := rfl
@[simp] theorem setResult_status (v : Word) : (s.setResult v).status = s.status := rfl
@[simp] theorem setResult_mem (v : Word) : (s.setResult v).mem = s.mem := rfl
@[simp] theorem setResult_memTop (v : Word) : (s.setResult v).memTop = s.memTop := rfl
@[simp] theorem setResult_faultMark (v : Word) : (s.setResult v).faultMark = s.faultMark := rfl
@[simp] theorem setResult_pending (v : Word) : (s.setResult v).pending = s.pending := rfl
@[simp] theorem setResult_replies (v : Word) : (s.setResult v).replies = s.replies := rfl
@[simp] theorem setResult_memBytes (v : Word) : (s.setResult v).memBytes = s.memBytes := rfl

/-! ### store -/

@[simp] theorem store_cmd (a : Nat) (bs : List Byte) : (s.store a bs).cmd = s.cmd := rfl
@[simp] theorem store_src (a : Nat) (bs : List Byte) : (s.store a bs).src = s.src := rfl
@[simp] theorem store_dst (a : Nat) (bs : List Byte) : (s.store a bs).dst = s.dst := rfl
@[simp] theorem store_value (a : Nat) (bs : List Byte) : (s.store a bs).value = s.value := rfl
@[simp] theorem store_expect (a : Nat) (bs : List Byte) : (s.store a bs).expect = s.expect := rfl
@[simp] theorem store_result (a : Nat) (bs : List Byte) : (s.store a bs).result = s.result := rfl
@[simp] theorem store_status (a : Nat) (bs : List Byte) : (s.store a bs).status = s.status := rfl
@[simp] theorem store_mem (a : Nat) (bs : List Byte) : (s.store a bs).mem = s.mem.writeRun a bs := rfl
@[simp] theorem store_memTop (a : Nat) (bs : List Byte) : (s.store a bs).memTop = s.memTop := rfl
@[simp] theorem store_faultMark (a : Nat) (bs : List Byte) : (s.store a bs).faultMark = s.faultMark := rfl
@[simp] theorem store_pending (a : Nat) (bs : List Byte) : (s.store a bs).pending = s.pending := rfl
@[simp] theorem store_replies (a : Nat) (bs : List Byte) : (s.store a bs).replies = s.replies := rfl
@[simp] theorem store_memBytes (a : Nat) (bs : List Byte) : (s.store a bs).memBytes = s.memBytes := rfl

/-! ### raise -/

@[simp] theorem raise_cmd (e : ErrCode) : (s.raise e).cmd = s.cmd := rfl
@[simp] theorem raise_src (e : ErrCode) : (s.raise e).src = s.src := rfl
@[simp] theorem raise_dst (e : ErrCode) : (s.raise e).dst = s.dst := rfl
@[simp] theorem raise_value (e : ErrCode) : (s.raise e).value = s.value := rfl
@[simp] theorem raise_expect (e : ErrCode) : (s.raise e).expect = s.expect := rfl
@[simp] theorem raise_result (e : ErrCode) : (s.raise e).result = s.result := rfl
@[simp] theorem raise_status (e : ErrCode) : (s.raise e).status = statusWord e := rfl
@[simp] theorem raise_mem (e : ErrCode) : (s.raise e).mem = s.mem := rfl
@[simp] theorem raise_memTop (e : ErrCode) : (s.raise e).memTop = s.memTop := rfl
@[simp] theorem raise_faultMark (e : ErrCode) : (s.raise e).faultMark = s.faultMark := rfl
@[simp] theorem raise_pending (e : ErrCode) : (s.raise e).pending = s.pending := rfl
@[simp] theorem raise_replies (e : ErrCode) : (s.raise e).replies = s.replies := rfl
@[simp] theorem raise_memBytes (e : ErrCode) : (s.raise e).memBytes = s.memBytes := rfl

/-! ### complete -/

@[simp] theorem complete_cmd : (s.complete).cmd = s.cmd := rfl
@[simp] theorem complete_src : (s.complete).src = s.src := rfl
@[simp] theorem complete_dst : (s.complete).dst = s.dst := rfl
@[simp] theorem complete_value : (s.complete).value = s.value := rfl
@[simp] theorem complete_expect : (s.complete).expect = s.expect := rfl
@[simp] theorem complete_result : (s.complete).result = s.result := rfl
@[simp] theorem complete_status : (s.complete).status = statusWord .noError := rfl
@[simp] theorem complete_mem : (s.complete).mem = s.mem := rfl
@[simp] theorem complete_memTop : (s.complete).memTop = s.memTop := rfl
@[simp] theorem complete_faultMark : (s.complete).faultMark = s.faultMark := rfl
@[simp] theorem complete_pending : (s.complete).pending = s.pending := rfl
@[simp] theorem complete_replies : (s.complete).replies = s.replies := rfl
@[simp] theorem complete_memBytes : (s.complete).memBytes = s.memBytes := rfl

/-! ### markFault -/

@[simp] theorem markFault_cmd : (s.markFault).cmd = s.cmd := rfl
@[simp] theorem markFault_src : (s.markFault).src = s.src := rfl
@[simp] theorem markFault_dst : (s.markFault).dst = s.dst := rfl
@[simp] theorem markFault_value : (s.markFault).value = s.value := rfl
@[simp] theorem markFault_expect : (s.markFault).expect = s.expect := rfl
@[simp] theorem markFault_result : (s.markFault).result = s.result := rfl
@[simp] theorem markFault_status : (s.markFault).status = s.status := rfl
@[simp] theorem markFault_mem : (s.markFault).mem = s.mem := rfl
@[simp] theorem markFault_memTop : (s.markFault).memTop = s.memTop := rfl
@[simp] theorem markFault_faultMark : (s.markFault).faultMark = true := rfl
@[simp] theorem markFault_pending : (s.markFault).pending = s.pending := rfl
@[simp] theorem markFault_replies : (s.markFault).replies = s.replies := rfl
@[simp] theorem markFault_memBytes : (s.markFault).memBytes = s.memBytes := rfl

/-! ### reply -/

@[simp] theorem reply_cmd (x : Reply) : (s.reply x).cmd = s.cmd := rfl
@[simp] theorem reply_src (x : Reply) : (s.reply x).src = s.src := rfl
@[simp] theorem reply_dst (x : Reply) : (s.reply x).dst = s.dst := rfl
@[simp] theorem reply_value (x : Reply) : (s.reply x).value = s.value := rfl
@[simp] theorem reply_expect (x : Reply) : (s.reply x).expect = s.expect := rfl
@[simp] theorem reply_result (x : Reply) : (s.reply x).result = s.result := rfl
@[simp] theorem reply_status (x : Reply) : (s.reply x).status = s.status := rfl
@[simp] theorem reply_mem (x : Reply) : (s.reply x).mem = s.mem := rfl
@[simp] theorem reply_memTop (x : Reply) : (s.reply x).memTop = s.memTop := rfl
@[simp] theorem reply_faultMark (x : Reply) : (s.reply x).faultMark = s.faultMark := rfl
@[simp] theorem reply_pending (x : Reply) : (s.reply x).pending = s.pending := rfl
@[simp] theorem reply_replies (x : Reply) : (s.reply x).replies = s.replies ++ [x] := rfl
@[simp] theorem reply_memBytes (x : Reply) : (s.reply x).memBytes = s.memBytes := rfl

/-! ### setPending -/

@[simp] theorem setPending_cmd (rest : List Interaction) : (s.setPending rest).cmd = s.cmd := rfl
@[simp] theorem setPending_src (rest : List Interaction) : (s.setPending rest).src = s.src := rfl
@[simp] theorem setPending_dst (rest : List Interaction) : (s.setPending rest).dst = s.dst := rfl
@[simp] theorem setPending_value (rest : List Interaction) : (s.setPending rest).value = s.value := rfl
@[simp] theorem setPending_expect (rest : List Interaction) : (s.setPending rest).expect = s.expect := rfl
@[simp] theorem setPending_result (rest : List Interaction) : (s.setPending rest).result = s.result := rfl
@[simp] theorem setPending_status (rest : List Interaction) : (s.setPending rest).status = s.status := rfl
@[simp] theorem setPending_mem (rest : List Interaction) : (s.setPending rest).mem = s.mem := rfl
@[simp] theorem setPending_memTop (rest : List Interaction) : (s.setPending rest).memTop = s.memTop := rfl
@[simp] theorem setPending_faultMark (rest : List Interaction) : (s.setPending rest).faultMark = s.faultMark := rfl
@[simp] theorem setPending_pending (rest : List Interaction) : (s.setPending rest).pending = rest := rfl
@[simp] theorem setPending_replies (rest : List Interaction) : (s.setPending rest).replies = s.replies := rfl
@[simp] theorem setPending_memBytes (rest : List Interaction) : (s.setPending rest).memBytes = s.memBytes := rfl

/-! ### hostReset -/

@[simp] theorem hostReset_cmd : (s.hostReset).cmd = 0#32 := rfl
@[simp] theorem hostReset_src : (s.hostReset).src = Reg.unwritten := rfl
@[simp] theorem hostReset_dst : (s.hostReset).dst = Reg.unwritten := rfl
@[simp] theorem hostReset_value : (s.hostReset).value = Reg.unwritten := rfl
@[simp] theorem hostReset_expect : (s.hostReset).expect = Reg.unwritten := rfl
@[simp] theorem hostReset_result : (s.hostReset).result = Reg.unwritten := rfl
@[simp] theorem hostReset_status : (s.hostReset).status = 0#32 := rfl
@[simp] theorem hostReset_mem : (s.hostReset).mem = [] := rfl
@[simp] theorem hostReset_memTop : (s.hostReset).memTop = s.memTop := rfl
@[simp] theorem hostReset_faultMark : (s.hostReset).faultMark = s.faultMark := rfl
@[simp] theorem hostReset_pending : (s.hostReset).pending = s.pending := rfl
@[simp] theorem hostReset_replies : (s.hostReset).replies = s.replies := rfl
@[simp] theorem hostReset_memBytes : (s.hostReset).memBytes = s.memBytes := rfl

/-! ### hostWrite, which depends on the register's name -/

@[simp] theorem hostWrite_cmd (r : RegName) (v : Word) : (s.hostWrite r v).cmd = s.cmd := by cases r <;> rfl
@[simp] theorem hostWrite_src (r : RegName) (v : Word) :
    (s.hostWrite r v).src = if r = .src then Reg.holding v else s.src := by cases r <;> rfl
@[simp] theorem hostWrite_dst (r : RegName) (v : Word) :
    (s.hostWrite r v).dst = if r = .dst then Reg.holding v else s.dst := by cases r <;> rfl
@[simp] theorem hostWrite_value (r : RegName) (v : Word) :
    (s.hostWrite r v).value = if r = .value then Reg.holding v else s.value := by cases r <;> rfl
@[simp] theorem hostWrite_expect (r : RegName) (v : Word) :
    (s.hostWrite r v).expect = if r = .expect then Reg.holding ((v.setWidth 8).setWidth 32) else s.expect := by cases r <;> rfl
@[simp] theorem hostWrite_result (r : RegName) (v : Word) : (s.hostWrite r v).result = s.result := by cases r <;> rfl
@[simp] theorem hostWrite_status (r : RegName) (v : Word) : (s.hostWrite r v).status = s.status := by cases r <;> rfl
@[simp] theorem hostWrite_mem (r : RegName) (v : Word) : (s.hostWrite r v).mem = s.mem := by cases r <;> rfl
@[simp] theorem hostWrite_memTop (r : RegName) (v : Word) : (s.hostWrite r v).memTop = s.memTop := by cases r <;> rfl
@[simp] theorem hostWrite_faultMark (r : RegName) (v : Word) : (s.hostWrite r v).faultMark = s.faultMark := by cases r <;> rfl
@[simp] theorem hostWrite_pending (r : RegName) (v : Word) : (s.hostWrite r v).pending = s.pending := by cases r <;> rfl
@[simp] theorem hostWrite_replies (r : RegName) (v : Word) : (s.hostWrite r v).replies = s.replies := by cases r <;> rfl
@[simp] theorem hostWrite_memBytes (r : RegName) (v : Word) : (s.hostWrite r v).memBytes = s.memBytes := by cases r <;> rfl

/-! ### Registers and resets -/

@[simp] theorem holding_val (v : Word) : (Reg.holding v).val = v := rfl
@[simp] theorem holding_written (v : Word) : (Reg.holding v).written = true := rfl
@[simp] theorem unwritten_val : Reg.unwritten.val = 0#32 := rfl
@[simp] theorem unwritten_written : Reg.unwritten.written = false := rfl

theorem read_ok_iff (x : Reg) (r : RegName) (v : Word) : x.read r = .ok v ↔ x.written = true ∧ x.val = v := by
  unfold Reg.read; split <;> simp_all

theorem read_error_iff (x : Reg) (r : RegName) (f : Fault) :
    x.read r = .error f ↔ x.written = false ∧ f = .unwrittenRegister r := by
  cases h : x.written <;> simp [Reg.read, h, eq_comm]

@[simp] theorem ofNumber_number (r : RegName) : RegName.ofNumber r.number = r := by cases r <;> rfl

theorem number_ofNumber (n : Fin 8) : (RegName.ofNumber n).number = n := by revert n; decide

/-- Every state's memory has between 1 and 2^32 bytes (R6). -/
theorem memBytes_bounds : 1 ≤ s.memBytes ∧ s.memBytes ≤ 2 ^ 32 := by
  have := s.memTop.isLt
  unfold State.memBytes
  omega

end Sys2Proof.Machine
end

