-- ==== Sys2Proof/Laws/Requests.lean ====
section
/-! SUPPORT. What a request can do, said once: the register check, the checks of R122, and the ways a request ends. -/

namespace Sys2Proof.Machine

/-- The register check passes when every register listed can be read. -/
theorem regFault_none_iff (s : State) (rs : List RegName) :
    s.regFault rs = none ↔ ∀ r ∈ rs, ∃ v, s.readReg r = .ok v := by
  induction rs with
  | nil => simp [State.regFault]
  | cons r rs ih =>
    unfold State.regFault
    split <;> rename_i h <;> simp [h, ih]

/-- The register check fails with the first register listed that cannot be read. -/
theorem regFault_some_iff (s : State) (rs : List RegName) (f : Fault) :
    s.regFault rs = some f ↔
      ∃ before r after, rs = before ++ r :: after ∧ (∀ q ∈ before, ∃ v, s.readReg q = .ok v) ∧ s.readReg r = .error f := by
  induction rs with
  | nil => simp [State.regFault]
  | cons q rs ih =>
    unfold State.regFault
    split
    · rename_i g h
      constructor
      · intro hf
        obtain rfl : g = f := by simpa using hf
        exact ⟨[], q, rs, rfl, by simp, h⟩
      · rintro ⟨before, r, after, he, hb, hr⟩
        cases before with
        | nil =>
          obtain ⟨rfl, rfl⟩ : q = r ∧ rs = after := by simpa using he
          rw [h] at hr; simpa using hr
        | cons p ps =>
          obtain ⟨rfl, -⟩ : q = p ∧ rs = ps ++ r :: after := by simpa using he
          obtain ⟨v, hv⟩ := hb q (by simp)
          rw [h] at hv; simp at hv
    · rename_i v h
      rw [ih]
      constructor
      · rintro ⟨before, r, after, rfl, hb, hr⟩
        exact ⟨q :: before, r, after, rfl, by simpa [h] using hb, hr⟩
      · rintro ⟨before, r, after, he, hb, hr⟩
        cases before with
        | nil =>
          obtain ⟨rfl, rfl⟩ : q = r ∧ rs = after := by simpa using he
          rw [h] at hr; simp at hr
        | cons p ps =>
          obtain ⟨rfl, rfl⟩ : q = p ∧ rs = ps ++ r :: after := by simpa using he
          exact ⟨ps, r, after, rfl, fun x hx => hb x (by simp [hx]), hr⟩

theorem inBounds_iff (m a n : Nat) : inBounds m a n = true ↔ n = 0 ∨ a + n ≤ m := by
  simp [inBounds]

theorem overlap_iff (a n b m : Nat) : overlap a n b m = true ↔ 0 < n ∧ 0 < m ∧ a < b + m ∧ b < a + n := by
  simp [overlap, and_assoc]

variable {s : State} {regs : List RegName} {srcLen dstLen : Nat} {effect : List Byte → State}

/-- Everything the checks of a request can come to (R122 steps 2 to 5). -/
theorem check_cases (s : State) (regs : List RegName) (srcLen dstLen : Nat) :
    (∃ f, s.regFault regs = some f ∧ s.check regs srcLen dstLen = .fault f) ∨
    (s.regFault regs = none ∧
      ((inBounds s.memBytes s.srcAddr srcLen = false ∨ inBounds s.memBytes s.dstAddr dstLen = false) ∧
          s.check regs srcLen dstLen = .raise .boundsError ∨
       inBounds s.memBytes s.srcAddr srcLen = true ∧ inBounds s.memBytes s.dstAddr dstLen = true ∧
        (overlap s.srcAddr srcLen s.dstAddr dstLen = true ∧ s.check regs srcLen dstLen = .raise .overlapError ∨
         overlap s.srcAddr srcLen s.dstAddr dstLen = false ∧
          ((∃ a, s.mem.readRun s.srcAddr srcLen = .error a ∧ s.check regs srcLen dstLen = .fault (.unwrittenMemory a)) ∨
           (∃ bs, s.mem.readRun s.srcAddr srcLen = .ok bs ∧ s.check regs srcLen dstLen = .pass bs))))) := by
  unfold State.check
  cases s.regFault regs <;> cases inBounds s.memBytes s.srcAddr srcLen <;> cases inBounds s.memBytes s.dstAddr dstLen <;>
    cases overlap s.srcAddr srcLen s.dstAddr dstLen <;> cases s.mem.readRun s.srcAddr srcLen <;> simp

/-- A request that passes its checks completes with its effect. -/
theorem request_pass {bs : List Byte} (hr : s.regFault regs = none)
    (hs : inBounds s.memBytes s.srcAddr srcLen = true) (hd : inBounds s.memBytes s.dstAddr dstLen = true)
    (ho : overlap s.srcAddr srcLen s.dstAddr dstLen = false) (hb : s.mem.readRun s.srcAddr srcLen = .ok bs) :
    s.request regs srcLen dstLen effect = .next (effect bs).complete := by
  simp [State.request, State.check, hr, hs, hd, ho, hb]

/-- A next state of a request is a raised error, with nothing else changed, or the completed effect. -/
theorem request_next {t : State} (h : s.request regs srcLen dstLen effect = .next t) :
    t = s.raise .boundsError ∨ t = s.raise .overlapError ∨
      ∃ bs, s.check regs srcLen dstLen = .pass bs ∧ t = (effect bs).complete := by
  unfold State.request at h
  obtain ⟨f, -, hc⟩ | ⟨-, ⟨-, hc⟩ | ⟨-, -, ⟨-, hc⟩ | ⟨-, ⟨a, -, hc⟩ | ⟨bs, -, hc⟩⟩⟩⟩ := check_cases s regs srcLen dstLen <;>
    rw [hc] at h
  · simp at h
  · exact .inl (by simpa using h.symm)
  · exact .inr (.inl (by simpa using h.symm))
  · simp at h
  · exact .inr (.inr ⟨bs, hc, by simpa using h.symm⟩)

/-- A fault of a request is an operand register that cannot be read or the lowest unwritten source byte. -/
theorem request_fault {f : Fault} (h : s.request regs srcLen dstLen effect = .fault f) :
    s.regFault regs = some f ∨
      ∃ a, inBounds s.memBytes s.srcAddr srcLen = true ∧ s.mem.readRun s.srcAddr srcLen = .error a ∧ f = .unwrittenMemory a := by
  unfold State.request at h
  obtain ⟨g, hg, hc⟩ | ⟨-, ⟨-, hc⟩ | ⟨hs, -, ⟨-, hc⟩ | ⟨-, ⟨a, ha, hc⟩ | ⟨bs, -, hc⟩⟩⟩⟩ := check_cases s regs srcLen dstLen <;>
    rw [hc] at h
  · exact .inl (by simpa [hg] using h)
  · simp at h
  · simp at h
  · exact .inr ⟨a, hs, ha, by simpa using h.symm⟩
  · simp at h

/-- A request is never refused. -/
theorem request_not_refused (r : Refusal) : s.request regs srcLen dstLen effect ≠ .refused r := by
  unfold State.request
  split <;> simp

/-- What each operation does with its source bytes once its checks have passed. -/
def effectOf : Instr → State → List Byte → State
  | .b2u16, s, bs => s.setResult (((bigEndian bs).setWidth 16).setWidth 32)
  | .b2i16, s, bs => s.setResult (((bigEndian bs).setWidth 16).signExtend 32)
  | .b2u32, s, bs | .b2i32, s, bs | .b2f32, s, bs => s.setResult (bigEndian bs)
  | .u16tob, s, _ | .i16tob, s, _ => s.store s.dstAddr (bytes16 (s.value.val.setWidth 16))
  | .u32tob, s, _ | .i32tob, s, _ | .f32tob, s, _ => s.store s.dstAddr (bytes32 s.value.val)
  | .copy _, s, bs => s.store s.dstAddr bs
  | .truncpad w _, s, bs => s.store s.dstAddr (padded w bs)
  | .crcgen _, s, bs => s.setResult ((crc8 bs).setWidth 32)
  | .crcchk _, s, bs => s.setResult (if crc8 bs = s.expect.val.extractLsb' 0 8 then 1#32 else 0#32)

/-- A legal operation is a request with the footprint of R75's table and its effect. -/
theorem exec_eq_request (i : Instr) (s : State) (h : i.WellFormed) :
    exec i s = s.request (footprint i).regs (footprint i).srcLen (footprint i).dstLen (effectOf i s) := by
  cases i with
  | truncpad w len =>
    have hw : legalWidth w = true := h
    simp only [exec, execTruncpad, hw, if_true]
    rfl
  | _ => rfl

/-- An illegal TRUNCPAD width is the IllegalRequest of R69. -/
theorem exec_of_illegal_width (i : Instr) (s : State) (h : ¬ i.WellFormed) : exec i s = .next (s.raise .illegalRequest) := by
  cases i with
  | truncpad w len =>
    have hw : ¬ legalWidth w = true := h
    simp [exec, execTruncpad, hw]
  | _ => exact absurd rfl h

end Sys2Proof.Machine
end

