-- ==== Sys2Proof/Laws/Step.lean ====
section
/-! SUPPORT. What a step can do, said once. -/

namespace Sys2Proof.Machine

/-- A marked state has no step (R40). -/
theorem step_marked {s : State} (h : s.faultMark = true) : step s = .refused .faultMarkSet := by
  simp [step, hostStep, h]

/-- With nothing asked of it the block is idle (R20). -/
theorem step_idle {s : State} (h : s.faultMark = false) (hp : s.pending = []) : step s = .next s := by
  simp [step, hostStep, h, hp]

/-- A step is the host's next interaction. -/
theorem step_interact {s : State} {x : Interaction} {rest : List Interaction} (h : s.faultMark = false)
    (hp : s.pending = x :: rest) : step s = interact x (s.setPending rest) := by
  simp [step, hostStep, h, hp]

/-- Everything a step can be. -/
theorem step_cases (s : State) :
    (s.faultMark = true ∧ step s = .refused .faultMarkSet) ∨
    (s.faultMark = false ∧ s.pending = [] ∧ step s = .next s) ∨
    ∃ x rest, s.faultMark = false ∧ s.pending = x :: rest ∧ step s = interact x (s.setPending rest) := by
  cases h : s.faultMark
  · cases hp : s.pending with
    | nil => exact .inr (.inl ⟨rfl, rfl, step_idle h hp⟩)
    | cons x rest => exact .inr (.inr ⟨x, rest, rfl, rfl, step_interact h hp⟩)
  · exact .inl ⟨rfl, step_marked h⟩

/-- An operation is never refused. -/
theorem exec_not_refused (i : Instr) (s : State) (r : Refusal) : exec i s ≠ .refused r := by
  by_cases h : i.WellFormed
  · rw [exec_eq_request i s h]; exact request_not_refused r
  · rw [exec_of_illegal_width i s h]; simp

/-- Every next state of an operation: a raised error, or the completed effect on the source bytes. -/
theorem exec_next {i : Instr} {s t : State} (h : exec i s = .next t) :
    (∃ e, e ≠ .noError ∧ t = s.raise e) ∨
      ∃ bs, i.WellFormed ∧ s.check (footprint i).regs (footprint i).srcLen (footprint i).dstLen = .pass bs ∧
        t = (effectOf i s bs).complete := by
  by_cases hw : i.WellFormed
  · rw [exec_eq_request i s hw] at h
    obtain rfl | rfl | ⟨bs, hc, rfl⟩ := request_next h
    · exact .inl ⟨_, by decide, rfl⟩
    · exact .inl ⟨_, by decide, rfl⟩
    · exact .inr ⟨bs, hw, hc, rfl⟩
  · rw [exec_of_illegal_width i s hw] at h
    exact .inl ⟨.illegalRequest, by decide, by simpa using h.symm⟩

/-- Every next state of an interaction. -/
theorem interact_next {x : Interaction} {s t : State} (h : interact x s = .next t) :
    (∃ n d, x = .regWrite n d ∧ RegName.ofNumber n = .cmd ∧
        ((∃ e, decode d = .error e ∧ t = (s.setCmd d).raise .illegalRequest) ∨ ∃ i, decode d = .ok i ∧ exec i (s.setCmd d) = .next t)) ∨
    (∃ n v, x = .regWrite n v ∧ RegName.ofNumber n ≠ .cmd ∧ RegName.ofNumber n ≠ .reserved ∧
        t = s.hostWrite (RegName.ofNumber n) v) ∨
    (∃ n v, x = .regRead n ∧ s.readReg (RegName.ofNumber n) = .ok v ∧ t = s.reply (.word v)) ∨
    (∃ a b, x = .memWrite a b ∧ a.toNat < s.memBytes ∧ t = s.store a.toNat [b]) ∨
    (∃ a b, x = .memRead a ∧ a.toNat < s.memBytes ∧ s.mem.get a.toNat = some b ∧ t = s.reply (.byte b)) ∨
    (x = .reset ∧ t = s.hostReset) := by
  cases x with
  | regWrite n v =>
    simp only [interact, regWrite] at h
    split at h
    · simp at h
    · rename_i hn
      refine .inl ⟨n, v, rfl, hn, ?_⟩
      unfold runRequest at h
      split at h
      · rename_i e he; exact .inl ⟨e, he, by simpa using h.symm⟩
      · rename_i i hi; exact .inr ⟨i, hi, h⟩
    · rename_i h1 h2
      exact .inr (.inl ⟨n, v, rfl, h2, h1, by simpa using h.symm⟩)
  | regRead n =>
    simp only [interact, regRead] at h
    split at h
    · simp at h
    · rename_i v hv
      exact .inr (.inr (.inl ⟨n, v, rfl, hv, by simpa using h.symm⟩))
  | memWrite a b =>
    simp only [interact, memWrite] at h
    split at h
    · simp at h
    · rename_i ha
      exact .inr (.inr (.inr (.inl ⟨a, b, rfl, by omega, by simpa using h.symm⟩)))
  | memRead a =>
    simp only [interact, memRead] at h
    split at h
    · simp at h
    · rename_i ha
      split at h
      · simp at h
      · rename_i b hb
        exact .inr (.inr (.inr (.inr (.inl ⟨a, b, rfl, by omega, hb, by simpa using h.symm⟩))))
  | reset => exact .inr (.inr (.inr (.inr (.inr ⟨rfl, by simpa [interact] using h.symm⟩))))

end Sys2Proof.Machine
end

