-- ==== Sys2Proof/Tests/Slice0.lean ====
section
/-! SUPPORT. Tests with results from 95_test_vectors.md (the vector's name stands with each) or worked out by hand from the rules, and,
for each statement with hypotheses, witnesses that states and operands meet them, at the ends of their ranges. -/

namespace Sys2Proof.Tests

open Sys2Proof.Machine

/-! ### Well-formedness: the one check refuses an ill-formed term -/

theorem test_wellFormed_widths : [1#4, 2#4, 4#4, 8#4].all (fun w => (Instr.truncpad w 0xFFFF#16).wellFormed) = true := by decide
theorem test_illFormed_width_three : (Instr.truncpad 3#4 2#16).wellFormed = false := by decide
theorem test_illFormed_width_zero : (Instr.truncpad 0#4 2#16).wellFormed = false := by decide

/-! ### Decoding: words written out bit by bit from R66 and R67 -/

theorem test_decode_b2u16 : decode 0b00000000000000000000000000010000#32 = .ok .b2u16 := by rfl
theorem test_decode_b2i16 : decode 0b00000000000000000000000000010001#32 = .ok .b2i16 := by rfl
theorem test_decode_b2u32 : decode 0b00000000000000000000000000010010#32 = .ok .b2u32 := by rfl
theorem test_decode_b2i32 : decode 0b00000000000000000000000000010011#32 = .ok .b2i32 := by rfl
theorem test_decode_b2f32 : decode 0b00000000000000000000000000010100#32 = .ok .b2f32 := by rfl
theorem test_decode_u16tob : decode 0b00000000000000000000000000100000#32 = .ok .u16tob := by rfl
theorem test_decode_i16tob : decode 0b00000000000000000000000000100001#32 = .ok .i16tob := by rfl
theorem test_decode_u32tob : decode 0b00000000000000000000000000100010#32 = .ok .u32tob := by rfl
theorem test_decode_i32tob : decode 0b00000000000000000000000000100011#32 = .ok .i32tob := by rfl
theorem test_decode_f32tob : decode 0b00000000000000000000000000100100#32 = .ok .f32tob := by rfl
/-- D-8. -/
theorem test_decode_copy : decode 0b11111111111111110000000000110000#32 = .ok (.copy 0xFFFF#16) := by rfl
/-- D-10. -/
theorem test_decode_truncpad : decode 0b00000000000000100000100000110001#32 = .ok (.truncpad 8#4 2#16) := by rfl
/-- D-13. -/
theorem test_decode_crcgen : decode 0b00000000000000100000000001000000#32 = .ok (.crcgen 2#16) := by rfl
theorem test_decode_crcchk : decode 0b00000000000000100000000001000001#32 = .ok (.crcchk 2#16) := by rfl
/-- D-3, D-4, D-15: reserved codes. -/
theorem test_decode_reserved : [0x00000000#32, 0x00000015#32, 0x000000FF#32].all (fun d => decide ((decode d).toOption = none)) = true := by
  decide
/-- D-5, D-6, D-7, D-11, D-12, D-14: a bad W, RSV or LEN. -/
theorem test_decode_bad_fields :
    [0x00000110#32, 0x00001010#32, 0x00010022#32, 0x00020031#32, 0x00020931#32, 0x00020141#32].all
      (fun d => decide ((decode d).toOption = none)) = true := by decide
theorem test_decodeTableWord : decodeTableWord 32 0x00020831 = some (.truncpad 8#4 2#16) := by decide

/-! ### States for the tests: MEM_BYTES = 16, as 95_test_vectors.md section 2 -/

def regOf : Option Nat → Reg
  | none => Reg.unwritten
  | some v => Reg.holding (BitVec.ofNat 32 v)

/-- A block with 16 bytes of memory, those listed written, and the operand registers given. -/
def st (mem : List Host.Cell) (src dst value expect : Option Nat) : State :=
  { State.resetWith 15#32 with mem := mem, src := regOf src, dst := regOf dst, value := regOf value, expect := regOf expect }

/-- The same with interactions to make. -/
def asked (s : State) (xs : List Interaction) : State := { s with pending := xs }

def nextOf : Host.Outcome State Fault Refusal → Option State
  | .next t => some t
  | .fault _ | .refused _ => none

def faultOf : Host.Outcome State Fault Refusal → Option Fault
  | .fault f => some f
  | .next _ | .refused _ => none

/-- RESULT and STATUS after an operation that completes or raises. -/
def resultOf (o : Host.Outcome State Fault Refusal) : Option (Reg × Word) := (nextOf o).map fun t => (t.result, t.status)

/-- The memory and STATUS after an operation that completes or raises. -/
def memOf (o : Host.Outcome State Fault Refusal) : Option (Memory × Word) := (nextOf o).map fun t => (t.mem, t.status)

/-! ### Bytes to value -/

/-- V1. -/
theorem test_b2u16_value : resultOf (exec .b2u16 (st [(0, 0xBE), (1, 0xEF)] (some 0) none none none)) =
    some (⟨0x0000BEEF, true⟩, 0) := by decide
/-- V16: one byte past the highest legal address. -/
theorem test_b2u16_bounds : resultOf (exec .b2u16 (st [(14, 1), (15, 2)] (some 15) none none none)) =
    some (Reg.unwritten, 2) := by decide
/-- V6. -/
theorem test_b2i16_negative : resultOf (exec .b2i16 (st [(14, 0x80), (15, 0x00)] (some 14) none none none)) =
    some (⟨0xFFFF8000, true⟩, 0) := by decide
/-- V5. -/
theorem test_b2i16_positive : resultOf (exec .b2i16 (st [(3, 0x7F), (4, 0xFF)] (some 3) none none none)) =
    some (⟨0x00007FFF, true⟩, 0) := by decide
/-- V8. -/
theorem test_b2u32_value : resultOf (exec .b2u32 (st [(12, 0x12), (13, 0x34), (14, 0x56), (15, 0x78)] (some 12) none none none)) =
    some (⟨0x12345678, true⟩, 0) := by decide
/-- V17: no wrap-around. -/
theorem test_b2u32_no_wrap : resultOf (exec .b2u32 (st [] (some 0xFFFFFFFE) none none none)) =
    some (Reg.unwritten, 2) := by decide
/-- V10. -/
theorem test_b2i32_value : resultOf (exec .b2i32 (st [(1, 0xFF), (2, 0xFF), (3, 0xFF), (4, 0xFE)] (some 1) none none none)) =
    some (⟨0xFFFFFFFE, true⟩, 0) := by decide
/-- V13: a NaN keeps its payload. -/
theorem test_b2f32_nan : resultOf (exec .b2f32 (st [(0, 0x7F), (1, 0xC0), (2, 0x00), (3, 0x01)] (some 0) none none none)) =
    some (⟨0x7FC00001, true⟩, 0) := by decide

/-! ### Value to bytes -/

/-- V22: bits 31:16 ignored. -/
theorem test_u16tob_low_half : memOf (exec .u16tob (st [] none (some 14) (some 0x12345678) none)) =
    some ([(14, 0x56), (15, 0x78)], 0) := by decide
/-- V33: DST is checked before VALUE. -/
theorem test_u16tob_dst_first : faultOf (exec .u16tob (st [] none none none none)) = some (.unwrittenRegister .dst) := by decide
/-- V25. -/
theorem test_i16tob_minimum : memOf (exec .i16tob (st [(1, 0xAA)] none (some 0) (some 0xFFFF8000) none)) =
    some ([(0, 0x80), (1, 0x00)], 0) := by decide
/-- V26. -/
theorem test_u32tob_value : memOf (exec .u32tob (st [(3, 9), (8, 9)] none (some 4) (some 0x12345678) none)) =
    some ([(3, 9), (4, 0x12), (5, 0x34), (6, 0x56), (7, 0x78), (8, 9)], 0) := by decide
/-- V31. -/
theorem test_u32tob_bounds : memOf (exec .u32tob (st [(13, 1), (15, 2)] none (some 13) (some 7) none)) =
    some ([(13, 1), (15, 2)], 2) := by decide
/-- V28. -/
theorem test_i32tob_minimum : memOf (exec .i32tob (st [] none (some 12) (some 0x80000000) none)) =
    some ([(12, 0x80), (13, 0), (14, 0), (15, 0)], 0) := by decide
/-- V29. -/
theorem test_f32tob_value : memOf (exec .f32tob (st [] none (some 0) (some 0xC0200000) none)) =
    some ([(0, 0xC0), (1, 0x20), (2, 0), (3, 0)], 0) := by decide

/-! ### Copies -/

/-- K1. -/
theorem test_copy_moves : memOf (exec (.copy 3#16) (st [(0, 1), (1, 2), (2, 3)] (some 0) (some 8) none none)) =
    some ([(0, 1), (1, 2), (2, 3), (8, 1), (9, 2), (10, 3)], 0) := by decide
/-- K3: one shared byte. -/
theorem test_copy_overlap : memOf (exec (.copy 2#16) (st [(3, 1), (4, 2)] (some 3) (some 2) none none)) =
    some ([(3, 1), (4, 2)], 3) := by decide
/-- T1. -/
theorem test_truncpad_pads : memOf (exec (.truncpad 4#4 2#16) (st [(0, 0xAB), (1, 0xCD)] (some 0) (some 4) none none)) =
    some ([(0, 0xAB), (1, 0xCD), (4, 0), (5, 0), (6, 0xAB), (7, 0xCD)], 0) := by decide
/-- T9: LEN > W zero-fills, reads no source byte and cannot overlap. -/
theorem test_truncpad_collapses : memOf (exec (.truncpad 2#4 4#16) (st [] (some 0) (some 0) none none)) =
    some ([(0, 0), (1, 0)], 0) := by decide

/-! ### CRC -/

set_option maxRecDepth 10000 in
/-- C6. -/
theorem test_crcgen_word : resultOf (exec (.crcgen 2#16) (st [(0, 0xBE), (1, 0xEF)] (some 0) none none none)) =
    some (⟨0x00000092, true⟩, 0) := by decide
/-- C30: no byte, any SRC value. -/
theorem test_crcgen_empty : resultOf (exec (.crcgen 0#16) (st [] (some 0xFFFFFFFF) none none none)) =
    some (⟨0x000000FF, true⟩, 0) := by decide
set_option maxRecDepth 10000 in
/-- C24. -/
theorem test_crcchk_match : resultOf (exec (.crcchk 2#16) (st [(0, 0xBE), (1, 0xEF)] (some 0) none none (some 0x92))) =
    some (⟨1, true⟩, 0) := by decide
set_option maxRecDepth 10000 in
/-- C25: a mismatch is no error. -/
theorem test_crcchk_mismatch : resultOf (exec (.crcchk 2#16) (st [(0, 0xBE), (1, 0xEF)] (some 0) none none (some 0x93))) =
    some (⟨0, true⟩, 0) := by decide
set_option maxRecDepth 10000 in
/-- C2 to C5 and C12. -/
theorem test_crc8_single_bytes : ([[0x00], [0xFF], [0x01], [0x80], [0x7F, 0xFF]].map crc8) = [0xAC, 0x00, 0x9D, 0xD6, 0x8F] := by decide

/-! ### The host's interactions -/

/-- G4. -/
theorem test_expect_low_byte : (nextOf (step (asked (st [] none none none none) [.regWrite 4 0x12345678]))).map (·.expect) =
    some ⟨0x00000078, true⟩ := by decide
/-- G3. -/
theorem test_result_after_reset : faultOf (step (asked State.reset [.regRead 5])) = some (.unwrittenRegister .result) := by decide
/-- G7, first step. -/
theorem test_illegal_request : (nextOf (step (asked State.reset [.regWrite 0 0x00000015]))).map (fun t => (t.cmd, t.status)) =
    some (0x00000015, 0x00000001) := by decide
/-- G8. -/
theorem test_host_out_of_range : faultOf (step (asked (st [] none none none none) [.memWrite 16 0])) =
    some (.hostOutOfRange 16) := by decide
/-- V18, as the first request after reset: the request runs and faults, as R31 says. -/
theorem test_first_request : faultOf (step (State.reset.withFetchWord 32 0x10)) = some (.unwrittenRegister .src) := by decide
/-- An illegal word is a request too. -/
theorem test_first_illegal_request : (nextOf (step (State.reset.withFetchWord 32 0x31))).map (·.status) = some 1 := by decide
/-- R36: CMD and STATUS are 0 and the marks clear; the reset value of CMD is no operation (R74). -/
theorem test_reset_cmd : (decode State.reset.cmd).toOption = none ∧ State.reset.faultMark = false := by decide

/-! ### The assembler -/

theorem test_assemble_truncpad : assemble [.name "TRUNCPAD", .num 4, .num 2] = some [.regWrite 0 0x00020431] := by decide
theorem test_assemble_mw : assemble [.name "MW", .num 0, .num 0xAB, .num 0xCD] = some [.memWrite 0 0xAB, .memWrite 1 0xCD] := by decide
theorem test_assemble_wr : assemble [.name "WR", .name "EXPECT", .num 0x92] = some [.regWrite 4 0x92] := by decide
theorem test_numerals : numeral ['0', 'x', '1', 'F'] = some 31 ∧ numeral ['5', '0'] = some 50 ∧ numeral ['0', 'x'] = none := by decide

/-! ### Witnesses: the hypotheses of the statements can be met -/

/-- B2U16 and B2I16: each clause at the end of memory. -/
theorem witness_load16 :
    (st [] none none none none).src.written = false ∧
    (¬ (st [] (some 15) none none none).Fits (st [] (some 15) none none none).src.val 2) ∧
    (st [(14, 1)] (some 14) none none none).Fits 14 2 ∧ (st [(14, 1)] (some 14) none none none).FirstUnwritten 14 1 ∧
    (st [(14, 1), (15, 2)] (some 14) none none none).src.written = true ∧
    (st [(14, 1), (15, 2)] (some 14) none none none).Holds 14 [1, 2] := by decide

/-- B2U32, B2I32 and B2F32. -/
theorem witness_load32 :
    (¬ (st [] (some 13) none none none).Fits 13 4) ∧
    (st [(12, 1), (13, 1), (14, 1)] (some 12) none none none).Fits 12 4 ∧
    (st [(12, 1), (13, 1), (14, 1)] (some 12) none none none).FirstUnwritten 12 3 ∧
    (st [(12, 1), (13, 2), (14, 3), (15, 4)] (some 12) none none none).Holds 12 [1, 2, 3, 4] := by decide

/-- The five …TOB operations. -/
theorem witness_stores :
    (st [] none none (some 1) none).dst.written = false ∧
    ((st [] none (some 0) none none).dst.written = true ∧ (st [] none (some 0) none none).value.written = false) ∧
    ((st [] none (some 15) (some 1) none).value.written = true ∧ ¬ (st [] none (some 15) (some 1) none).Fits 15 2) ∧
    (¬ (st [] none (some 13) (some 1) none).Fits 13 4) ∧
    (st [] none (some 14) (some 1) none).Fits 14 2 ∧ (st [] none (some 12) (some 1) none).Fits 12 4 := by decide

theorem witness_shares : Shares 3 2 2 2 ∧ Shares 0 2 0 2 :=
  ⟨⟨3, by decide, by decide, by decide, by decide⟩, ⟨1, by decide, by decide, by decide, by decide⟩⟩

theorem witness_not_shares : ¬ Shares 0 2 2 2 ∧ ¬ Shares 0 0 0 2 := by
  refine ⟨?_, ?_⟩
  · rintro ⟨x, -, h1, h2, -⟩
    have h1 : x < 0 + 2 := h1
    have h2 : 2 ≤ x := h2
    omega
  · rintro ⟨x, -, h1, -, -⟩
    have h1 : x < 0 + 0 := h1
    omega

/-- COPY (n = m = 2) and TRUNCPAD (W = 2, LEN = 2): written registers, each bounds clause, ranges that meet without sharing a byte, an
unwritten last byte, and the bytes of a whole source range. -/
theorem witness_copies :
    (st [] none (some 0) none none).src.written = false ∧
    ((st [] (some 0) none none none).src.written = true ∧ (st [] (some 0) none none none).dst.written = false) ∧
    (¬ (st [] (some 15) (some 0) none none).Fits 15 2) ∧
    ((st [] (some 0) (some 15) none none).Fits 0 2 ∧ ¬ (st [] (some 0) (some 15) none none).Fits 15 2) ∧
    ((st [(0, 1)] (some 0) (some 2) none none).Fits 0 2 ∧ (st [(0, 1)] (some 0) (some 2) none none).Fits 2 2 ∧
      (st [(0, 1)] (some 0) (some 2) none none).FirstUnwritten 0 1) ∧
    (st [(0, 1), (1, 2)] (some 0) (some 2) none none).Holds 0 [1, 2] ∧
    (2#4 ∈ [1#4, 2#4, 4#4, 8#4] ∧ 3#4 ∉ [1#4, 2#4, 4#4, 8#4]) ∧
    ((footprint (.copy 2#16)).regs = [.src, .dst] ∧ (footprint (.truncpad 2#4 2#16)).regs = [.src, .dst]) := by decide

/-- TRUNCPAD at LEN = W and at LEN > W, with its destination bytes. -/
theorem witness_truncpad_number :
    ((nextOf (exec (.truncpad 2#4 2#16) (st [(0, 1), (1, 2)] (some 0) (some 14) none none))).map fun t =>
      (t.status, t.mem.get 14, t.mem.get 15)) = some (0, some 1, some 2) ∧
    ((nextOf (exec (.truncpad 8#4 0#16) (st [] (some 0) (some 8) none none))).map fun t => (t.status, t.mem.get 15)) =
      some (0, some 0) := by decide

set_option maxRecDepth 10000 in
/-- CRCGEN and CRCCHK: the clauses beside those of the loads, with a run that fills memory's end, a match and a mismatch. -/
theorem witness_crc :
    ((st [] (some 0) none none none).src.written = true ∧ (st [] (some 0) none none none).expect.written = false) ∧
    (st [] (some 0xFFFFFFFF) none none (some 0xFF)).Fits 0xFFFFFFFF 0 ∧
    (¬ (st [] (some 14) none none (some 0)).Fits 14 3) ∧
    ((st [(14, 0xBE), (15, 0xEF)] (some 14) none none (some 0x92)).Holds 14 [0xBE, 0xEF] ∧
      crc8 [0xBE, 0xEF] = (st [] none none none (some 0x92)).expect.val.extractLsb' 0 8 ∧
      crc8 [0xBE, 0xEF] ≠ (st [] none none none (some 0x93)).expect.val.extractLsb' 0 8) := by decide

/-- Round trips, a framed word, and the halves of a stored word: one address in SRC and DST, at the end of memory. -/
theorem witness_round_trip :
    (st [] (some 14) (some 14) (some 7) none).dst = ⟨14, true⟩ ∧ (st [] (some 14) (some 14) (some 7) none).src = ⟨14, true⟩ ∧
    (st [] (some 14) (some 14) (some 7) none).value = ⟨7, true⟩ ∧ (st [] (some 14) (some 14) (some 7) none).Fits 14 2 ∧
    (st [] (some 12) (some 12) (some 7) none).dst = ⟨12, true⟩ ∧ (st [] (some 12) (some 12) (some 7) none).Fits 12 4 ∧
    (14#32).toNat = (12#32).toNat + 2 := by decide

theorem witness_wellFormed : (Instr.truncpad 8#4 0xFFFF#16).WellFormed ∧ Instr.b2u16.WellFormed := by decide

theorem witness_legal : LegalR72 0xFFFF0831#32 ∧ LegalR72 0x00000024#32 ∧ ¬ LegalR72 0xFFFF0331#32 ∧ ¬ LegalR72 0x00010024#32 := by
  unfold LegalR72
  decide

/-- A legal request waiting, with the decoded operation; an illegal one; a Reset; reads to follow. -/
theorem witness_requests :
    (asked (st [] (some 0) none none none) [.regWrite 0 0x10]).faultMark = false ∧
    (asked (st [] (some 0) none none none) [.regWrite 0 0x10]).pending = .regWrite 0 0x10 :: [] ∧
    (decode 0x10#32).toOption = some .b2u16 ∧
    (asked State.reset [.regWrite 0 0, .regRead 0]).pending = .regWrite 0 0 :: .regRead 0 :: [] ∧
    (nextOf (step (asked State.reset [.regWrite 0 0, .regRead 0]))).isSome = true ∧
    (nextOf (step (asked State.reset [.regWrite 0 0, .regRead 6]))).isSome = true ∧
    (nextOf (step (asked State.reset [.reset, .regRead 0]))).isSome = true ∧
    (asked State.reset [.regWrite 4 5, .regRead 4]).faultMark = false := by decide

/-- Each clause of the priority statement, met by COPY 2 with descriptor 0x00020030. -/
theorem witness_priority :
    (decode 0x00020030#32).toOption = some (.copy 2#16) ∧ (footprint (.copy 2#16)).regs = [.src] ++ .dst :: [] ∧
    ((st [] (some 0) none none none).isWritten .src = true ∧ (st [] (some 0) none none none).isWritten .dst = false) ∧
    ((footprint (.copy 2#16)).regs.all fun r => (st [] (some 0) (some 2) none none).isWritten r) = true ∧
    (footprint (.copy 2#16)).srcLen = 2 ∧ (footprint (.copy 2#16)).dstLen = 2 ∧
    (∀ k, k < 2 → ((st [(0, 1), (1, 2)] (some 0) (some 2) none none).mem.get ((0#32).toNat + k)).isSome = true) := by decide

/-- A raised and a completed request. -/
theorem witness_raised :
    (nextOf (runRequest 0#32 State.reset)).map (·.status) = some 1 ∧
    (nextOf (runRequest 0x40#32 (st [] (some 0) none none none))).map (·.status) = some 0 := by decide

/-- Two states with the same inputs to B2U16 that differ elsewhere. -/
theorem witness_same_inputs :
    SameInputs .b2u16 (st [(14, 1), (15, 2)] (some 14) none none none) (st [(3, 9), (14, 1), (15, 2)] (some 14) (some 4) (some 5) none) :=
  ⟨rfl, by decide, by decide⟩

/-- The frames: an operation of each kind that completes. -/
theorem witness_frames :
    (writesResult .b2u16 = true ∧ (resultOf (exec .b2u16 (st [(14, 1), (15, 2)] (some 14) none none none))).isSome = true) ∧
    (writesResult .u16tob = false ∧ (memOf (exec .u16tob (st [] none (some 14) (some 1) none))).isSome = true) := by decide

/-- Host accesses: every register number, a written and an unwritten register, the last address and the one past it. -/
theorem witness_host_access :
    ([0, 1, 2, 3, 4, 5, 6].all fun n => (nextOf (step (asked (st [] none none none none) [.regWrite n 0xFFFFFFFF]))).isSome) = true ∧
    faultOf (step (asked (st [] none none none none) [.regWrite 7 0])) = some .reservedRegister ∧
    faultOf (step (asked (st [] none none none none) [.regRead 7])) = some .reservedRegister ∧
    ((st [] none none none none).isWritten (RegName.ofNumber 1) = false ∧ (st [] (some 1) none none none).isWritten (RegName.ofNumber 1) = true) ∧
    ((15#32).toNat < (st [] none none none none).memBytes ∧ (st [] none none none none).memBytes ≤ (16#32).toNat) ∧
    ((st [(15, 7)] none none none none).mem.get 15 = some 7 ∧ (st [] none none none none).mem.get 15 = none) := by decide

/-- Steps that fault, one for each row of R127's table. -/
theorem witness_faults :
    faultOf (step (asked State.reset [.regRead 1])) = some (.unwrittenRegister .src) ∧
    faultOf (step (asked (st [(14, 1)] (some 14) none none none) [.regWrite 0 0x10])) = some (.unwrittenMemory 15) ∧
    faultOf (step (asked State.reset [.regWrite 7 0])) = some .reservedRegister ∧
    faultOf (step (asked (st [] none none none none) [.memRead 16])) = some (.hostOutOfRange 16) := by decide

theorem witness_marked : (State.reset.markFault).faultMark = true := by decide

/-- A legal state with bytes at both ends of memory and every register written. -/
theorem witness_inv : (st [(0, 1), (15, 2)] (some 1) (some 2) (some 3) (some 0xFF)).Inv where
  memWf := by decide
  memInRange := by
    intro a b h
    have : a = 0 ∨ a = 15 := by
      by_contra hc
      have h0 : ¬ (0 = a) := by omega
      have h1 : ¬ (15 = a) := by omega
      simp [st, Memory.get, h0, h1] at h
    show a < 16
    omega
  expectHigh := by decide
  statusCode := ⟨.noError, by decide⟩
  regs := ⟨.inl rfl, .inl rfl, .inl rfl, .inl rfl, .inr rfl⟩
  noFault := rfl

/-- Steps that are no Reset, and one with nothing asked. -/
theorem witness_steps :
    (asked State.reset [.regRead 6]).pending.head? ≠ some .reset ∧
    (nextOf (step (asked State.reset [.regRead 6]))).isSome = true ∧
    State.reset.pending = [] ∧ (nextOf (step State.reset)).isSome = true := by decide

/-- Program P5, the run that faults, and a run that does not. -/
theorem witness_runs :
    faultOf (runAll 7#32 [.memWrite 0 0x01, .regWrite 1 0, .regWrite 0 0x10]) = some (.unwrittenMemory 1) ∧
    (nextOf (runAll 7#32 [.memWrite 0 0x01])).isSome = true := by decide

/-- The ends of the assembler's ranges. -/
theorem witness_assembler :
    (65535 ≤ 65535 ∧ 65535 < 65536) ∧ (¬ ((3 = 1 ∨ 3 = 2 ∨ 3 = 4 ∨ 3 = 8) ∧ 2 ≤ 65535)) ∧
    (0xFFFFFFFF#32).toNat + ([] : List Byte).length < 2 ^ 32 ∧ (0 < 1 ∧ (0xFFFFFFFF#32).toNat + 1 ≤ 2 ^ 32) := by decide

end Sys2Proof.Tests
end

section
/-! PROOF. What the statements of 00_scope.md need about requests and steps: how a request ends, what an operation's effect keeps and
stores, and that its checks and its effect read nothing but the operation's explicit inputs. -/

namespace Sys2Proof.Machine

/-! ### Error codes -/

/-- STATUS after a raised error is one of the codes 1, 2 and 3 of R120. -/
theorem statusWord_mem_of_ne_noError {e : ErrCode} (h : e ≠ .noError) : statusWord e ∈ [1#32, 2#32, 3#32] := by
  revert h
  cases e <;> decide

theorem statusWord_eq_zero_iff (e : ErrCode) : statusWord e = 0#32 ↔ e = .noError := by
  cases e <;> decide

/-! ### How a request ends -/

/-- The checks of R122 raise only real errors. -/
theorem check_raise_ne_noError {s : State} {regs : List RegName} {srcLen dstLen : Nat} {e : ErrCode}
    (h : s.check regs srcLen dstLen = .raise e) : e ≠ .noError := by
  rintro rfl
  obtain ⟨f, -, hc⟩ | ⟨-, ⟨-, hc⟩ | ⟨-, -, ⟨-, hc⟩ | ⟨-, ⟨a, -, hc⟩ | ⟨bs, -, hc⟩⟩⟩⟩ := check_cases s regs srcLen dstLen <;>
    simp [hc] at h

/-- The checks pass only if every operand register can be read. -/
theorem regFault_none_of_check_pass {s : State} {regs : List RegName} {srcLen dstLen : Nat} {bs : List Byte}
    (h : s.check regs srcLen dstLen = .pass bs) : s.regFault regs = none := by
  obtain ⟨f, -, hc⟩ | ⟨hr, -⟩ := check_cases s regs srcLen dstLen
  · simp [hc] at h
  · exact hr

/-- The checks pass the bytes of the whole source range. -/
theorem length_of_check_pass {s : State} {regs : List RegName} {srcLen dstLen : Nat} {bs : List Byte}
    (h : s.check regs srcLen dstLen = .pass bs) : bs.length = srcLen := by
  obtain ⟨f, -, hc⟩ | ⟨-, ⟨-, hc⟩ | ⟨-, -, ⟨-, hc⟩ | ⟨-, ⟨a, -, hc⟩ | ⟨cs, hcs, hc⟩⟩⟩⟩ := check_cases s regs srcLen dstLen <;>
    rw [hc] at h
  · simp at h
  · simp at h
  · simp at h
  · simp at h
  · obtain rfl : cs = bs := by simpa using h
    exact ((readRun_ok_iff _ _ _ _).1 hcs).1

/-- Every next state of `Request(D)` (R122): CMD is stored, then an error is raised or the operation's effect completes. -/
theorem runRequest_next {d : Word} {s t : State} (h : runRequest d s = .next t) :
    (∃ e, e ≠ .noError ∧ t = (s.setCmd d).raise e) ∨
      ∃ i bs, decode d = .ok i ∧ t = (effectOf i (s.setCmd d) bs).complete := by
  unfold runRequest at h
  split at h
  · exact .inl ⟨.illegalRequest, by decide, by simpa using h.symm⟩
  next i hi =>
    obtain hraise | ⟨bs, -, -, ht⟩ := exec_next h
    · exact .inl hraise
    · exact .inr ⟨i, bs, hi, ht⟩

/-! ### The size of memory -/

@[simp] theorem effectOf_memTop (i : Instr) (s : State) (bs : List Byte) : (effectOf i s bs).memTop = s.memTop := by
  cases i <;> rfl

theorem exec_next_memTop {i : Instr} {s t : State} (h : exec i s = .next t) : t.memTop = s.memTop := by
  obtain ⟨e, -, rfl⟩ | ⟨bs, -, -, rfl⟩ := exec_next h
  · rfl
  · simp

theorem interact_next_memTop {x : Interaction} {s t : State} (h : interact x s = .next t) : t.memTop = s.memTop := by
  obtain ⟨n, d, -, -, ⟨e, -, rfl⟩ | ⟨i, -, hi⟩⟩ | ⟨n, v, -, -, -, rfl⟩ | ⟨n, v, -, -, rfl⟩ | ⟨a, b, -, -, rfl⟩ |
    ⟨a, b, -, -, -, rfl⟩ | ⟨-, rfl⟩ := interact_next h
  case inl.inr => exact (exec_next_memTop hi).trans (setCmd_memTop s d)
  all_goals simp

theorem step_next_memTop {s t : State} (h : step s = .next t) : t.memTop = s.memTop := by
  obtain ⟨-, hs⟩ | ⟨-, -, hs⟩ | ⟨x, rest, -, -, hs⟩ := step_cases s <;> rw [hs] at h
  · simp at h
  · obtain rfl : s = t := by simpa using h
    rfl
  · exact (interact_next_memTop h).trans (setPending_memTop s rest)

/-! ### What an effect stores -/

/-- The bytes an operation puts at DST (R91 to R95, R101, R102), from VALUE and the source bytes; none if it writes RESULT. -/
def storedBytes : Instr → Word → List Byte → List Byte
  | .u16tob, v, _ | .i16tob, v, _ => bytes16 (v.setWidth 16)
  | .u32tob, v, _ | .i32tob, v, _ | .f32tob, v, _ => bytes32 v
  | .copy _, _, bs => bs
  | .truncpad w _, _, bs => padded w bs
  | .b2u16, _, _ | .b2i16, _, _ | .b2u32, _, _ | .b2i32, _, _ | .b2f32, _, _ | .crcgen _, _, _ | .crcchk _, _, _ => []

/-- The memory an effect leaves is the old one with the operation's bytes written at DST. -/
theorem effectOf_mem (i : Instr) (s : State) (bs : List Byte) :
    (effectOf i s bs).mem = s.mem.writeRun s.dstAddr (storedBytes i s.value.val bs) := by
  cases i <;> rfl

/-- The stored bytes fill exactly the destination range of R75. -/
theorem storedBytes_length (i : Instr) (v : Word) {bs : List Byte} (h : bs.length = (footprint i).srcLen) :
    (storedBytes i v bs).length = (footprint i).dstLen := by
  cases i with
  | copy len => exact h
  | truncpad w len =>
    have hle : bs.length ≤ w.toNat := by
      rw [h]
      simp only [footprint]
      split <;> omega
    simp only [storedBytes, padded, footprint, List.length_append, List.length_replicate]
    omega
  | _ => rfl

/-- The bytes an effect leaves in the destination range of R75 are the stored ones. -/
theorem get_effectOf_mem_dst (i : Instr) (s : State) {bs : List Byte} (h : bs.length = (footprint i).srcLen) {k : Nat}
    (hk : k < (footprint i).dstLen) :
    (effectOf i s bs).mem.get (s.dstAddr + k) = (storedBytes i s.value.val bs)[k]? := by
  rw [effectOf_mem, get_writeRun, storedBytes_length i _ h, if_pos (by omega), Nat.add_sub_cancel_left]

/-! ### An effect depends on explicit inputs only -/

/-- The bytes at DST depend on VALUE only if VALUE is an operand of the operation. -/
theorem storedBytes_congr (i : Instr) {v v' : Word} (bs : List Byte) (h : .value ∈ (footprint i).regs → v' = v) :
    storedBytes i v' bs = storedBytes i v bs := by
  cases i with
  | u16tob | i16tob | u32tob | i32tob | f32tob => rw [h (by simp [footprint])]
  | _ => rfl

/-- RESULT depends on the state only through EXPECT, and only if EXPECT is an operand of the operation. -/
theorem effectOf_result_congr {i : Instr} {s s' : State} (bs : List Byte) (hw : writesResult i = true)
    (h : .expect ∈ (footprint i).regs → s'.expect.val = s.expect.val) :
    (effectOf i s' bs).result = (effectOf i s bs).result := by
  cases i with
  | crcchk len => simp [effectOf, h (by simp [footprint])]
  | b2u16 | b2i16 | b2u32 | b2i32 | b2f32 | crcgen => rfl
  | _ => cases hw

/-! ### The checks depend on explicit inputs only -/

theorem regFault_congr {s s' : State} {rs : List RegName} (h : ∀ r ∈ rs, s'.readReg r = s.readReg r) :
    s'.regFault rs = s.regFault rs := by
  induction rs with
  | nil => rfl
  | cons r rs ih =>
    simp only [State.regFault, h r (by simp)]
    rw [ih fun q hq => h q (by simp [hq])]

/-- Two registers that read alike, and can be read, hold the same value. -/
theorem val_eq_of_read_eq {x y : Reg} {r : RegName} (h : y.read r = x.read r) (hx : ∃ v, x.read r = .ok v) : y.val = x.val := by
  obtain ⟨v, hv⟩ := hx
  rw [((read_ok_iff x r v).1 hv).2, ((read_ok_iff y r v).1 (h.trans hv)).2]

/-- The source run depends on its own bytes only. -/
theorem readRun_congr {m m' : Memory} {a n : Nat} (h : ∀ k, k < n → m'.get (a + k) = m.get (a + k)) :
    m'.readRun a n = m.readRun a n := by
  induction n generalizing a with
  | zero => rfl
  | succ n ih =>
    have htail : m'.readRun (a + 1) n = m.readRun (a + 1) n := by
      refine ih fun k hk => ?_
      rw [show a + 1 + k = a + (k + 1) by omega]
      exact h (k + 1) (by omega)
    have hhead : m'.get a = m.get a := h 0 (by omega)
    simp only [Memory.readRun, hhead, htail]

/-- R75: SRC is an operand of every operation with a source range. -/
theorem src_mem_regs_of_srcLen_pos {i : Instr} (h : 0 < (footprint i).srcLen) : .src ∈ (footprint i).regs := by
  cases i <;> simp [footprint] at h ⊢

/-- R75: DST is an operand of every operation with a destination range. -/
theorem dst_mem_regs_of_dstLen_pos {i : Instr} (h : 0 < (footprint i).dstLen) : .dst ∈ (footprint i).regs := by
  cases i <;> simp [footprint] at h ⊢

/-- Once the operand registers can be read, the checks on the ranges depend on SRC and DST only where a range starts there. -/
theorem check_congr {s s' : State} {regs : List RegName} {srcLen dstLen : Nat} (htop : s'.memTop = s.memTop)
    (hregs : s'.regFault regs = s.regFault regs)
    (hsrc : s.regFault regs = none → 0 < srcLen → s'.srcAddr = s.srcAddr)
    (hdst : s.regFault regs = none → 0 < dstLen → s'.dstAddr = s.dstAddr)
    (hmem : ∀ k, k < srcLen → s'.mem.get (s.srcAddr + k) = s.mem.get (s.srcAddr + k)) :
    s'.check regs srcLen dstLen = s.check regs srcLen dstLen := by
  have hbytes : s'.memBytes = s.memBytes := by simp [State.memBytes, htop]
  cases hr : s.regFault regs with
  | some f => simp [State.check, hregs, hr]
  | none =>
    have hs : inBounds s'.memBytes s'.srcAddr srcLen = inBounds s.memBytes s.srcAddr srcLen ∧
        s'.mem.readRun s'.srcAddr srcLen = s.mem.readRun s.srcAddr srcLen := by
      rcases Nat.eq_zero_or_pos srcLen with rfl | hpos
      · exact ⟨rfl, rfl⟩
      · rw [hbytes, hsrc hr hpos]
        exact ⟨rfl, readRun_congr hmem⟩
    have hd : inBounds s'.memBytes s'.dstAddr dstLen = inBounds s.memBytes s.dstAddr dstLen := by
      rcases Nat.eq_zero_or_pos dstLen with rfl | hpos
      · rfl
      · rw [hbytes, hdst hr hpos]
    have ho : overlap s'.srcAddr srcLen s'.dstAddr dstLen = overlap s.srcAddr srcLen s.dstAddr dstLen := by
      rcases Nat.eq_zero_or_pos srcLen with rfl | hspos
      · rfl
      rcases Nat.eq_zero_or_pos dstLen with rfl | hdpos
      · simp [overlap]
      · rw [hsrc hr hspos, hdst hr hdpos]
    simp [State.check, hregs, hr, hs, hd, ho]

section
variable {i : Instr} {s s' : State} (hin : SameInputs i s s')
include hin

/-- Same inputs come to the same verdict (R2, R122 steps 2 to 5). -/
theorem SameInputs.check_eq :
    s'.check (footprint i).regs (footprint i).srcLen (footprint i).dstLen =
      s.check (footprint i).regs (footprint i).srcLen (footprint i).dstLen := by
  obtain ⟨htop, hread, hmem⟩ := hin
  refine check_congr htop (regFault_congr hread) (fun hr hpos => ?_) (fun hr hpos => ?_) hmem
  · have hmemb := src_mem_regs_of_srcLen_pos hpos
    exact congrArg BitVec.toNat (val_eq_of_read_eq (hread _ hmemb) ((regFault_none_iff s _).1 hr _ hmemb))
  · have hmemb := dst_mem_regs_of_dstLen_pos hpos
    exact congrArg BitVec.toNat (val_eq_of_read_eq (hread _ hmemb) ((regFault_none_iff s _).1 hr _ hmemb))

variable {bs : List Byte} (hc : s.check (footprint i).regs (footprint i).srcLen (footprint i).dstLen = .pass bs)
include hc

/-- Same inputs that pass the checks give the same RESULT (R2). -/
theorem SameInputs.result_eq (hw : writesResult i = true) : (effectOf i s' bs).result = (effectOf i s bs).result := by
  have hr := regFault_none_of_check_pass hc
  obtain ⟨-, hread, -⟩ := hin
  exact effectOf_result_congr bs hw fun he => val_eq_of_read_eq (hread _ he) ((regFault_none_iff s _).1 hr _ he)

/-- Same inputs that pass the checks give the same destination bytes (R2). -/
theorem SameInputs.dst_bytes_eq {k : Nat} (hk : k < (footprint i).dstLen) :
    (effectOf i s' bs).mem.get (s.dstAddr + k) = (effectOf i s bs).mem.get (s.dstAddr + k) := by
  obtain ⟨-, hread, -⟩ := hin
  have hok := (regFault_none_iff s _).1 (regFault_none_of_check_pass hc)
  have hlen := length_of_check_pass hc
  have hd := dst_mem_regs_of_dstLen_pos (i := i) (by omega)
  have haddr : s'.dstAddr = s.dstAddr := congrArg BitVec.toNat (val_eq_of_read_eq (hread _ hd) (hok _ hd))
  calc (effectOf i s' bs).mem.get (s.dstAddr + k)
      = (storedBytes i s'.value.val bs)[k]? := by rw [← haddr, get_effectOf_mem_dst i s' hlen hk]
    _ = (storedBytes i s.value.val bs)[k]? := by
        rw [storedBytes_congr i bs fun hv => val_eq_of_read_eq (hread _ hv) (hok _ hv)]
    _ = (effectOf i s bs).mem.get (s.dstAddr + k) := (get_effectOf_mem_dst i s hlen hk).symm

end

/-! ### The obligations -/

/-- Settles O28: a next state of a request is a raised error, which is CMD and STATUS alone, or a completion, whose STATUS is 0. -/
theorem raisedRequestHasNoPartialEffect : Obligations.RaisedRequestHasNoPartialEffect := by
  intro s t d h hstatus
  obtain ⟨e, he, rfl⟩ | ⟨i, bs, -, rfl⟩ := runRequest_next h
  · exact ⟨statusWord_mem_of_ne_noError he, rfl⟩
  · exact absurd rfl hstatus

/-- Settles O29: the two states come to the same verdict of the checks, and the effect on the passed bytes reads only operand
registers. -/
theorem outcomeDependsOnExplicitInputs : Obligations.OutcomeDependsOnExplicitInputs := by
  intro i s s' hin
  by_cases hw : i.WellFormed
  · rw [exec_eq_request i s hw, exec_eq_request i s' hw]
    unfold State.request
    rw [hin.check_eq]
    cases hc : s.check (footprint i).regs (footprint i).srcLen (footprint i).dstLen with
    | fault f => simp
    | raise e =>
      have hne : statusWord e ≠ 0#32 := (statusWord_eq_zero_iff e).not.2 (check_raise_ne_noError hc)
      simp [hne]
    | pass bs =>
      refine ⟨by simp, ?_⟩
      rintro t ⟨⟩
      exact ⟨_, rfl, rfl, fun _ => ⟨hin.result_eq hc, fun k hk => hin.dst_bytes_eq hc hk⟩⟩
  · have hne : statusWord .illegalRequest ≠ 0#32 := by decide
    simp [exec_of_illegal_width i _ hw, hne]

/-- Settles O42: MEM_BYTES is `memTop + 1`, and no interaction writes `memTop`. -/
theorem memorySizeIsFixed : Obligations.MemorySizeIsFixed := by
  intro s t h
  have hkeep : t.memBytes = s.memBytes := by simp [State.memBytes, step_next_memTop h]
  exact ⟨hkeep, memBytes_bounds t⟩

end Sys2Proof.Machine
end

section
/-! PROOF. What the statements of 10_state.md need: the equations of each host interaction, the three ways a request ends, what a step
keeps, and that every operation keeps the legal states. -/

namespace Sys2Proof.Machine

/-! ### Registers by number and by name -/

/-- A register number names `r` exactly when it is the number of `r` (R21). -/
theorem ofNumber_eq_iff (n : Fin 8) (r : RegName) : RegName.ofNumber n = r ↔ n = r.number :=
  ⟨fun h => by rw [← h, number_ofNumber], fun h => by rw [h, ofNumber_number]⟩

@[simp] theorem readReg_setPending (s : State) (rest : List Interaction) (r : RegName) :
    (s.setPending rest).readReg r = s.readReg r := by cases r <;> rfl

/-- What a read of a register other than register 7 gives: its value, or the fault that names it (R31, R38). -/
theorem readReg_ofNumber (s : State) {n : Fin 8} (hn : n ≠ 7) :
    s.readReg (RegName.ofNumber n) =
      if s.isWritten (RegName.ofNumber n) then
        .ok ([s.cmd, s.src.val, s.dst.val, s.value.val, s.expect.val, s.result.val, s.status].getD n.val 0#32)
      else .error (.unwrittenRegister (RegName.ofNumber n)) :=
  match n with
  | 0 | 1 | 2 | 3 | 4 | 5 | 6 => rfl
  | 7 => absurd rfl hn

/-! ### STATUS -/

theorem statusWord_high (e : ErrCode) : (statusWord e).extractLsb' 4 28 = 0#28 := by cases e <;> rfl

theorem err_statusWord (e : ErrCode) : (statusWord e).extractLsb' 0 4 = e.code := by cases e <;> rfl

theorem code_mem (e : ErrCode) : e.code ∈ [0#4, 1#4, 2#4, 3#4] := by cases e <;> decide

/-! ### Written marks -/

@[simp] theorem isWritten_setPending (s : State) (rest : List Interaction) (r : RegName) :
    (s.setPending rest).isWritten r = s.isWritten r := by cases r <;> rfl
@[simp] theorem isWritten_setCmd (s : State) (d : Word) (r : RegName) : (s.setCmd d).isWritten r = s.isWritten r := by
  cases r <;> rfl
@[simp] theorem isWritten_raise (s : State) (e : ErrCode) (r : RegName) : (s.raise e).isWritten r = s.isWritten r := by
  cases r <;> rfl
@[simp] theorem isWritten_complete (s : State) (r : RegName) : s.complete.isWritten r = s.isWritten r := by cases r <;> rfl
@[simp] theorem isWritten_store (s : State) (a : Nat) (bs : List Byte) (r : RegName) :
    (s.store a bs).isWritten r = s.isWritten r := by cases r <;> rfl
@[simp] theorem isWritten_reply (s : State) (x : Reply) (r : RegName) : (s.reply x).isWritten r = s.isWritten r := by
  cases r <;> rfl

/-- RESULT becomes written and no other register does (R30). -/
@[simp] theorem isWritten_setResult (s : State) (v : Word) (r : RegName) :
    (s.setResult v).isWritten r = (s.isWritten r || r == .result) := by
  cases r <;> simp [State.isWritten]

/-- The host's write of a register unwrites none (R30). -/
theorem isWritten_hostWrite {s : State} {r : RegName} (q : RegName) (v : Word) (h : s.isWritten r = true) :
    (s.hostWrite q v).isWritten r = true := by
  cases r with
  | cmd | status => rfl
  | result => simpa [State.isWritten] using h
  | reserved => cases h
  | src | dst | value | expect =>
    simp only [State.isWritten, hostWrite_src, hostWrite_dst, hostWrite_value, hostWrite_expect] at h ⊢
    split
    · rfl
    · exact h

/-- A write to memory unwrites no byte (R50). -/
theorem isSome_get_writeRun {m : Memory} {x : Nat} (a : Nat) (bs : List Byte) (h : (m.get x).isSome = true) :
    ((m.writeRun a bs).get x).isSome = true := by
  rw [get_writeRun]
  split
  next hx => simp only [List.getElem?_eq_getElem (show x - a < bs.length by omega), Option.isSome_some]
  next => exact h

/-! ### How a request ends -/

/-- The decoder gives only well-formed operations (R72). -/
theorem wellFormed_of_decode_ok {d : Word} {i : Instr} (h : decode d = .ok i) : i.WellFormed := by
  obtain ⟨-, ⟨hi, -⟩ | ⟨-, -, rfl⟩ | ⟨-, hw, rfl⟩ | ⟨-, -, rfl⟩ | ⟨-, -, rfl⟩⟩ := decode_ok_cases h
  · have hall : ∀ j ∈ conversions, j.WellFormed := by decide
    exact hall i hi
  · rfl
  · exact hw
  · rfl
  · rfl

/-- The checks pass only if the destination range is in bounds (R48). -/
theorem dst_inBounds_of_check_pass {s : State} {regs : List RegName} {srcLen dstLen : Nat} {bs : List Byte}
    (h : s.check regs srcLen dstLen = .pass bs) : dstLen = 0 ∨ s.dstAddr + dstLen ≤ s.memBytes := by
  obtain ⟨f, -, hc⟩ | ⟨-, ⟨-, hc⟩ | ⟨-, hd, -⟩⟩ := check_cases s regs srcLen dstLen
  · simp [hc] at h
  · simp [hc] at h
  · exact (inBounds_iff _ _ _).1 hd

/-- An operation of the column "writes registers" of R75 writes RESULT and nothing else. -/
theorem effectOf_of_writesResult {i : Instr} (s : State) (bs : List Byte) (h : writesResult i = true) :
    ∃ v, effectOf i s bs = s.setResult v := by
  cases i with
  | b2u16 | b2i16 | b2u32 | b2i32 | b2f32 | crcgen | crcchk => exact ⟨_, rfl⟩
  | _ => cases h

/-- Every other operation stores its bytes at DST and does nothing else. -/
theorem effectOf_of_not_writesResult {i : Instr} (s : State) (bs : List Byte) (h : writesResult i = false) :
    effectOf i s bs = s.store s.dstAddr (storedBytes i s.value.val bs) := by
  cases i with
  | u16tob | i16tob | u32tob | i32tob | f32tob | copy | truncpad => rfl
  | _ => cases h

/-- Every next state of an operation that writes RESULT: a raised error, or RESULT written and completion. -/
theorem exec_next_of_writesResult {i : Instr} {s t : State} (hw : writesResult i = true) (h : exec i s = .next t) :
    (∃ e, e ≠ .noError ∧ t = s.raise e) ∨ ∃ v, t = (s.setResult v).complete := by
  obtain hraise | ⟨bs, -, -, rfl⟩ := exec_next h
  · exact .inl hraise
  · obtain ⟨v, hv⟩ := effectOf_of_writesResult s bs hw
    exact .inr ⟨v, by rw [hv]⟩

/-- Every next state of an operation that stores: a raised error, or the bytes of the destination range, which is in bounds, stored
and completion. -/
theorem exec_next_of_not_writesResult {i : Instr} {s t : State} (hw : writesResult i = false) (h : exec i s = .next t) :
    (∃ e, e ≠ .noError ∧ t = s.raise e) ∨
      ∃ bs, bs.length = (footprint i).dstLen ∧ (bs.length = 0 ∨ s.dstAddr + bs.length ≤ s.memBytes) ∧
        t = (s.store s.dstAddr bs).complete := by
  obtain hraise | ⟨bs, -, hc, rfl⟩ := exec_next h
  · exact .inl hraise
  · have hlen := storedBytes_length i s.value.val (length_of_check_pass hc)
    refine .inr ⟨_, hlen, ?_, by rw [effectOf_of_not_writesResult s bs hw]⟩
    rw [hlen]
    exact dst_inBounds_of_check_pass hc

/-- The three ways a request ends (R122): with CMD stored, an error is raised, or RESULT is written and it completes, or bytes in
bounds are stored at DST and it completes. -/
theorem runRequest_next_cases {d : Word} {s t : State} (h : runRequest d s = .next t) :
    (∃ e, t = (s.setCmd d).raise e) ∨ (∃ v, t = ((s.setCmd d).setResult v).complete) ∨
      ∃ bs, (bs.length = 0 ∨ s.dstAddr + bs.length ≤ s.memBytes) ∧ t = ((s.setCmd d).store s.dstAddr bs).complete := by
  unfold runRequest at h
  split at h
  · exact .inl ⟨.illegalRequest, by simpa using h.symm⟩
  next i hi =>
    cases hw : writesResult i with
    | true =>
      obtain ⟨e, -, ht⟩ | hres := exec_next_of_writesResult hw h
      · exact .inl ⟨e, ht⟩
      · exact .inr (.inl hres)
    | false =>
      obtain ⟨e, -, ht⟩ | ⟨bs, -, hb, ht⟩ := exec_next_of_not_writesResult hw h
      · exact .inl ⟨e, ht⟩
      · exact .inr (.inr ⟨bs, hb, ht⟩)

/-- A request leaves its descriptor in CMD and the operand registers as they were (R22, R23). -/
theorem runRequest_next_regs {d : Word} {s t : State} (h : runRequest d s = .next t) :
    t.cmd = d ∧ t.src = s.src ∧ t.dst = s.dst ∧ t.value = s.value ∧ t.expect = s.expect := by
  obtain ⟨e, rfl⟩ | ⟨v, rfl⟩ | ⟨bs, -, rfl⟩ := runRequest_next_cases h <;> exact ⟨rfl, rfl, rfl, rfl, rfl⟩

/-- A request leaves the fault mark and the host's own part as they were (R37). -/
theorem runRequest_next_host {d : Word} {s t : State} (h : runRequest d s = .next t) :
    t.faultMark = s.faultMark ∧ t.pending = s.pending ∧ t.replies = s.replies := by
  obtain ⟨e, rfl⟩ | ⟨v, rfl⟩ | ⟨bs, -, rfl⟩ := runRequest_next_cases h <;> exact ⟨rfl, rfl, rfl⟩

/-- STATUS after a request holds an error code (R29, R120). -/
theorem runRequest_next_status {d : Word} {s t : State} (h : runRequest d s = .next t) : ∃ e, t.status = statusWord e := by
  obtain ⟨e, rfl⟩ | ⟨v, rfl⟩ | ⟨bs, -, rfl⟩ := runRequest_next_cases h <;> exact ⟨_, rfl⟩

/-- A request unwrites no register and no byte (R30, R50). -/
theorem runRequest_next_written {d : Word} {s t : State} (h : runRequest d s = .next t) :
    (∀ r, s.isWritten r = true → t.isWritten r = true) ∧ ∀ x, (s.mem.get x).isSome = true → (t.mem.get x).isSome = true := by
  obtain ⟨e, rfl⟩ | ⟨v, rfl⟩ | ⟨bs, -, rfl⟩ := runRequest_next_cases h
  · exact ⟨fun r hr => by simpa using hr, fun x hx => hx⟩
  · exact ⟨fun r hr => by simp [hr], fun x hx => hx⟩
  · exact ⟨fun r hr => by simpa using hr, fun x hx => isSome_get_writeRun _ bs hx⟩

/-! ### What an interaction and a step can do -/

/-- Every next state of an interaction, with a request as `runRequest` (R37). -/
theorem interact_next_cases {x : Interaction} {s t : State} (h : interact x s = .next t) :
    (∃ d, x = .regWrite 0 d ∧ runRequest d s = .next t) ∨
    (∃ n v, x = .regWrite n v ∧ n ≠ 0 ∧ t = s.hostWrite (RegName.ofNumber n) v) ∨
    (∃ n v, x = .regRead n ∧ t = s.reply (.word v)) ∨
    (∃ a b, x = .memWrite a b ∧ a.toNat < s.memBytes ∧ t = s.store a.toNat [b]) ∨
    (∃ a b, x = .memRead a ∧ t = s.reply (.byte b)) ∨
    (x = .reset ∧ t = s.hostReset) := by
  obtain ⟨n, d, rfl, hn, -⟩ | ⟨n, v, rfl, hn, -, ht⟩ | ⟨n, v, hx, -, ht⟩ | hmw | ⟨a, b, hx, -, -, ht⟩ | hr := interact_next h
  · obtain rfl := (ofNumber_eq_iff n .cmd).1 hn
    exact .inl ⟨d, rfl, h⟩
  · exact .inr (.inl ⟨n, v, rfl, fun h0 => hn ((ofNumber_eq_iff n .cmd).2 h0), ht⟩)
  · exact .inr (.inr (.inl ⟨n, v, hx, ht⟩))
  · exact .inr (.inr (.inr (.inl hmw)))
  · exact .inr (.inr (.inr (.inr (.inl ⟨a, b, hx, ht⟩))))
  · exact .inr (.inr (.inr (.inr (.inr hr))))

/-- No interaction is refused. -/
theorem interact_not_refused (x : Interaction) (s : State) (r : Refusal) : interact x s ≠ .refused r := by
  cases x with
  | regWrite n v =>
    simp only [interact, regWrite]
    split
    · simp
    · unfold runRequest
      split
      · simp
      · exact exec_not_refused _ _ r
    · simp
  | regRead n => simp only [interact, regRead]; split <;> simp
  | memWrite a b => simp only [interact, memWrite]; split <;> simp
  | memRead a =>
    simp only [interact, memRead]
    split
    · simp
    · split <;> simp
  | reset => simp [interact]

/-- A next state of a step is the idle block itself, or what the host's first interaction leaves (R20, R37). -/
theorem step_next_cases {s t : State} (h : step s = .next t) :
    (s.pending = [] ∧ t = s) ∨
      ∃ x rest, s.faultMark = false ∧ s.pending = x :: rest ∧ interact x (s.setPending rest) = .next t := by
  obtain ⟨-, hs⟩ | ⟨-, hp, hs⟩ | ⟨x, rest, hf, hp, hs⟩ := step_cases s <;> rw [hs] at h
  · simp at h
  · exact .inl ⟨hp, by simpa using h.symm⟩
  · exact .inr ⟨x, rest, hf, hp, h⟩

/-- A request next that answers a next state is `runRequest` in a state whose fault mark is clear (R122). -/
theorem step_next_of_request {s t : State} {d : Word} {rest : List Interaction} (hp : s.pending = .regWrite 0 d :: rest)
    (h : step s = .next t) : s.faultMark = false ∧ runRequest d (s.setPending rest) = .next t := by
  obtain ⟨hnil, -⟩ | ⟨x, rest', hf, hx, ht⟩ := step_next_cases h
  · simp [hp] at hnil
  · obtain ⟨rfl, rfl⟩ : .regWrite 0 d = x ∧ rest = rest' := by simpa [hp] using hx
    exact ⟨hf, ht⟩

/-- A host read of a register that can be read gives its value back (R38). -/
theorem step_regRead {s : State} {n : Fin 8} {v : Word} {rest : List Interaction} (hf : s.faultMark = false)
    (hp : s.pending = .regRead n :: rest) (hv : s.readReg (RegName.ofNumber n) = .ok v) :
    step s = .next ((s.setPending rest).reply (.word v)) := by
  simp [step_interact hf hp, interact, regRead, hv]

/-- A host read of a register that cannot be read is that fault (R31, R33). -/
theorem step_regRead_fault {s : State} {n : Fin 8} {f : Fault} {rest : List Interaction} (hf : s.faultMark = false)
    (hp : s.pending = .regRead n :: rest) (hv : s.readReg (RegName.ofNumber n) = .error f) : step s = .fault f := by
  simp [step_interact hf hp, interact, regRead, hv]

section
variable {s : State} {a : Word}

theorem memWrite_outOfRange (b : Byte) (h : s.memBytes ≤ a.toNat) : memWrite a b s = .fault (.hostOutOfRange a.toNat) :=
  if_pos h

theorem memWrite_inRange (b : Byte) (h : a.toNat < s.memBytes) : memWrite a b s = .next (s.store a.toNat [b]) :=
  if_neg (by omega)

theorem memRead_outOfRange (h : s.memBytes ≤ a.toNat) : memRead a s = .fault (.hostOutOfRange a.toNat) := if_pos h

theorem memRead_unwritten (h : a.toNat < s.memBytes) (hget : s.mem.get a.toNat = none) :
    memRead a s = .fault (.unwrittenMemory a.toNat) := by
  simp [memRead, hget, h]

theorem memRead_written {b : Byte} (h : a.toNat < s.memBytes) (hget : s.mem.get a.toNat = some b) :
    memRead a s = .next (s.reply (.byte b)) := by
  simp [memRead, hget, h]

end

/-! ### EXPECT -/

/-- The low byte of a word, zero extended: what EXPECT stores (R27). -/
theorem lowByte_eq_and (v : Word) : (v.setWidth 8).setWidth 32 = v &&& 0xFF#32 := by
  apply BitVec.eq_of_toNat_eq
  have hmod : v.toNat &&& 255 = v.toNat % 256 := Nat.and_two_pow_sub_one_eq_mod v.toNat 8
  simp only [BitVec.toNat_setWidth, BitVec.toNat_and, BitVec.toNat_ofNat, Nat.reducePow, Nat.reduceMod]
  omega

/-- EXPECT[31:8] are 0 (R27). -/
theorem extractLsb'_high_lowByte (v : Word) : ((v.setWidth 8).setWidth 32).extractLsb' 8 24 = 0#24 := by
  apply BitVec.eq_of_getLsbD_eq
  intro k hk
  simp

/-- EXPECT[7:0] is the byte stored (R27). -/
theorem extractLsb'_low_lowByte (v : Word) : ((v.setWidth 8).setWidth 32).extractLsb' 0 8 = v.extractLsb' 0 8 := by
  apply BitVec.eq_of_getLsbD_eq
  intro k hk
  simp [hk, show k < 32 by omega]

/-! ### The legal states -/

/-- The power-on state is legal, for a memory of any size (R36, R140). -/
theorem resetWith_inv (top : Word) : (State.resetWith top).Inv where
  memWf := reset_mem_wf top
  memInRange a b h := by cases h
  expectHigh := show (0#32).extractLsb' 8 24 = 0#24 by decide
  statusCode := ⟨.noError, rfl⟩
  regs := ⟨.inr rfl, .inr rfl, .inr rfl, .inr rfl, .inr rfl⟩
  noFault := rfl

theorem holding_canonical (v : Word) : (Reg.holding v).canonical := .inl rfl

section
variable {s : State} (hs : s.Inv)
include hs

theorem State.Inv.setPending (rest : List Interaction) : (s.setPending rest).Inv := { hs with }

theorem State.Inv.setCmd (d : Word) : (s.setCmd d).Inv := { hs with }

theorem State.Inv.reply (x : Reply) : (s.reply x).Inv := { hs with }

theorem State.Inv.raise (e : ErrCode) : (s.raise e).Inv := { hs with statusCode := ⟨e, rfl⟩ }

theorem State.Inv.complete : s.complete.Inv := { hs with statusCode := ⟨.noError, rfl⟩ }

theorem State.Inv.setResult (v : Word) : (s.setResult v).Inv :=
  have ⟨hsrc, hdst, hvalue, hexpect, _⟩ := hs.regs
  { hs with regs := ⟨hsrc, hdst, hvalue, hexpect, holding_canonical v⟩ }

/-- Storing bytes in bounds keeps memory canonical and within MEM_BYTES (R46). -/
theorem State.Inv.store {a : Nat} {bs : List Byte} (hb : bs.length = 0 ∨ a + bs.length ≤ s.memBytes) :
    (s.store a bs).Inv :=
  { hs with
    memWf := writeRun_wf s.mem a bs hs.memWf
    memInRange := fun x b hx => by
      rw [store_mem, get_writeRun] at hx
      rw [store_memBytes]
      split at hx
      · omega
      · exact hs.memInRange x b hx }

/-- The host's write of a register keeps EXPECT's high bits 0 and makes a register written (R27, R38). -/
theorem State.Inv.hostWrite (r : RegName) (v : Word) : (s.hostWrite r v).Inv := by
  obtain ⟨hsrc, hdst, hvalue, hexpect, hresult⟩ := hs.regs
  cases r with
  | src => exact { hs with regs := ⟨holding_canonical v, hdst, hvalue, hexpect, hresult⟩ }
  | dst => exact { hs with regs := ⟨hsrc, holding_canonical v, hvalue, hexpect, hresult⟩ }
  | value => exact { hs with regs := ⟨hsrc, hdst, holding_canonical v, hexpect, hresult⟩ }
  | expect =>
    exact { hs with
      expectHigh := extractLsb'_high_lowByte v
      regs := ⟨hsrc, hdst, hvalue, holding_canonical _, hresult⟩ }
  | cmd | result | status | reserved => exact hs

theorem State.Inv.hostReset : s.hostReset.Inv := { resetWith_inv s.memTop with noFault := hs.noFault }

/-- A request keeps the legal states: it is made of operations that do. -/
theorem State.Inv.runRequest_next {d : Word} {t : State} (h : runRequest d s = .next t) : t.Inv := by
  obtain ⟨e, rfl⟩ | ⟨v, rfl⟩ | ⟨bs, hb, rfl⟩ := runRequest_next_cases h
  · exact (hs.setCmd d).raise e
  · exact ((hs.setCmd d).setResult v).complete
  · exact ((hs.setCmd d).store hb).complete

/-- Every interaction keeps the legal states. -/
theorem State.Inv.interact_next {x : Interaction} {t : State} (h : interact x s = .next t) : t.Inv := by
  obtain ⟨d, -, hd⟩ | ⟨n, v, -, -, rfl⟩ | ⟨n, v, -, rfl⟩ | ⟨a, b, -, ha, rfl⟩ | ⟨a, b, -, rfl⟩ | ⟨-, rfl⟩ :=
    interact_next_cases h
  · exact hs.runRequest_next hd
  · exact hs.hostWrite _ v
  · exact hs.reply _
  · exact hs.store (.inr ha)
  · exact hs.reply _
  · exact hs.hostReset

end

/-! ### The obligations: the whole machine -/

/-- Settles O40: an idle step changes nothing, and every interaction is made of operations that keep the legal states. -/
theorem stepKeepsLegalStates : Obligations.StepKeepsLegalStates := by
  intro s t hs h
  obtain ⟨-, rfl⟩ | ⟨x, rest, -, -, hx⟩ := step_next_cases h
  · exact hs
  · exact (hs.setPending rest).interact_next hx

/-- Settles O41. -/
theorem resetIsLegal : Obligations.ResetIsLegal := ⟨resetWith_inv, resetWith_inv Config.memTop⟩

/-- Settles O44: a marked state is refused, an idle step is a next state, and no interaction is refused. -/
theorem onlyMarkedStatesAreRefused : Obligations.OnlyMarkedStatesAreRefused := by
  intro s r
  obtain ⟨hf, hs⟩ | ⟨hf, -, hs⟩ | ⟨x, rest, hf, -, hs⟩ := step_cases s <;> rw [hs]
  · simp [hf, eq_comm]
  · simp [hf]
  · simp [hf, interact_not_refused]

/-- Settles O46: the state an interaction leaves has the host's list as it was, and the replies with a read's value added. -/
theorem interactionsTakeEffectInOrder : Obligations.InteractionsTakeEffectInOrder := by
  intro s x rest hf hp
  have hstep : step s = interact x (s.setPending rest) := step_interact hf hp
  refine ⟨hstep, fun t ht => ?_⟩
  obtain ⟨d, rfl, hd⟩ | ⟨n, v, rfl, -, rfl⟩ | ⟨n, v, rfl, rfl⟩ | ⟨a, b, rfl, -, rfl⟩ | ⟨a, b, rfl, rfl⟩ | ⟨rfl, rfl⟩ :=
    interact_next_cases (hstep.symm.trans ht)
  · obtain ⟨-, hhost⟩ := runRequest_next_host hd
    exact hhost
  · exact ⟨hostWrite_pending _ _ v, hostWrite_replies _ _ v⟩
  · exact ⟨rfl, v, rfl⟩
  · exact ⟨rfl, rfl⟩
  · exact ⟨rfl, b, rfl⟩
  · exact ⟨rfl, rfl⟩

/-- Settles O47: a request, the host's writes and its reads each keep what is written. -/
theorem onlyResetUnwrites : Obligations.OnlyResetUnwrites := by
  intro s t hreset h
  obtain ⟨-, rfl⟩ | ⟨x, rest, -, hp, hx⟩ := step_next_cases h
  · exact ⟨fun r hr => hr, fun x hx => hx⟩
  obtain ⟨d, -, hd⟩ | ⟨n, v, -, -, rfl⟩ | ⟨n, v, -, rfl⟩ | ⟨a, b, -, -, rfl⟩ | ⟨a, b, -, rfl⟩ | ⟨rfl, -⟩ :=
    interact_next_cases hx
  · obtain ⟨hregs, hmem⟩ := runRequest_next_written hd
    exact ⟨fun r hr => hregs r (by simpa using hr), hmem⟩
  · exact ⟨fun r hr => isWritten_hostWrite _ v (by simpa using hr), fun x hx => by simpa using hx⟩
  · exact ⟨fun r hr => by simpa using hr, fun x hx => hx⟩
  · exact ⟨fun r hr => by simpa using hr, fun x hx => isSome_get_writeRun _ [b] hx⟩
  · exact ⟨fun r hr => by simpa using hr, fun x hx => hx⟩
  · simp [hp] at hreset

/-- Settles O48: a request's frame keeps the operand registers, the host's write keeps all but the register it names, and nothing else
changes a register. -/
theorem registersChangeOnlyByHostWrite : Obligations.RegistersChangeOnlyByHostWrite := by
  intro s t hreset h
  obtain ⟨hp, rfl⟩ | ⟨x, rest, -, hp, hx⟩ := step_next_cases h
  · simp [hp]
  obtain ⟨d, rfl, hd⟩ | ⟨n, v, rfl, hn, rfl⟩ | ⟨n, v, rfl, rfl⟩ | ⟨a, b, rfl, -, rfl⟩ | ⟨a, b, rfl, rfl⟩ | ⟨rfl, -⟩ :=
    interact_next_cases hx
  · simp [hp, runRequest_next_regs hd]
  · simp +contextual [hp, hn, ofNumber_eq_iff, RegName.number]
  · simp [hp]
  · simp [hp]
  · simp [hp]
  · simp [hp] at hreset

/-- Settles O39. -/
theorem blockNeverStartsAStep : Obligations.BlockNeverStartsAStep := by
  intro s t hp h
  obtain ⟨-, rfl⟩ | ⟨x, rest, -, hx, -⟩ := step_next_cases h
  · rfl
  · simp [hp] at hx

/-! ### The obligations: requests -/

/-- Settles O24: `runRequest` of a descriptor that decodes is the operation, and the decoder gives only well-formed ones. -/
theorem stepRunsTheDecodedOperation : Obligations.StepRunsTheDecodedOperation := by
  intro s d rest i hf hp hd
  refine ⟨wellFormed_of_decode_ok hd, ?_⟩
  have hstep : step s = runRequest d (s.setPending rest) := step_interact hf hp
  rw [hstep, runRequest, hd]
  rfl

/-- Settles O30: a raised error changes STATUS alone, and a completion writes RESULT and a STATUS of 0. -/
theorem frameOfValueOperations : Obligations.FrameOfValueOperations := by
  intro i s t hw h
  obtain ⟨e, -, rfl⟩ | ⟨v, rfl⟩ := exec_next_of_writesResult hw h
  · exact ⟨rfl, fun _ => rfl, fun _ => rfl⟩
  · exact ⟨rfl, fun hne => absurd rfl hne, fun _ => rfl⟩

/-- Settles O31: a raised error changes STATUS alone, and a completion writes exactly the destination range and a STATUS of 0. -/
theorem frameOfStoringOperations : Obligations.FrameOfStoringOperations := by
  intro i s t hw h
  obtain ⟨e, -, rfl⟩ | ⟨bs, hlen, -, rfl⟩ := exec_next_of_not_writesResult hw h
  · exact ⟨rfl, fun _ _ => rfl, fun _ _ => rfl⟩
  · refine ⟨rfl, fun x hx => ?_, fun hne => absurd rfl hne⟩
    rw [← hlen] at hx
    exact get_writeRun_outside s.mem bs hx

/-! ### The obligations: the host's accesses -/

/-- Settles O32: each register number has its own equation; a read is `readReg_ofNumber`. -/
theorem hostRegisterAccess : Obligations.HostRegisterAccess := by
  intro s v rest hf
  refine ⟨step_interact hf, step_interact hf, step_interact hf, step_interact hf, step_interact hf, ?_, step_interact hf,
    step_interact hf, step_interact hf, fun n hn hp => ?_⟩
  · intro hp
    rw [← lowByte_eq_and]
    exact step_interact hf hp
  · have hread := readReg_ofNumber s hn
    exact ⟨fun hw => step_regRead_fault hf hp (by simpa [hw] using hread),
      fun hw => step_regRead hf hp (by simpa [hw] using hread)⟩

/-- Settles O33: below MEM_BYTES a write sets one byte and a read depends on whether its byte is written. -/
theorem hostMemoryAccess : Obligations.HostMemoryAccess := by
  intro s a rest hf
  refine ⟨fun b hp => ⟨fun hle => ?_, fun hlt => ?_⟩, fun hp => ⟨fun hle => ?_, fun hlt hget => ?_, fun b hlt hget => ?_⟩⟩ <;>
    rw [step_interact hf hp]
  · exact memWrite_outOfRange b hle
  · exact ⟨s.mem.set a.toNat b, memWrite_inRange b hlt, get_set_self s.mem a.toNat b,
      fun x hx => get_set_other s.mem b (by omega)⟩
  · exact memRead_outOfRange hle
  · exact memRead_unwritten hlt hget
  · exact memRead_written hlt hget

/-- Settles O36: the write stores the low byte, and the read gives it back. -/
theorem expectHoldsOneByte : Obligations.ExpectHoldsOneByte := by
  intro s v rest hf hp
  have hlow : v.extractLsb' 0 8 = v.setWidth 8 := by ext k hk; simp
  refine ⟨_, _, step_interact hf hp, step_regRead (n := 4) hf rfl rfl, extractLsb'_high_lowByte v,
    extractLsb'_low_lowByte v, ?_⟩
  rw [hlow]
  rfl

/-- Settles O37: a request leaves its descriptor in CMD, Reset leaves 0, and CMD can always be read. -/
theorem cmdReadsBackLastDescriptor : Obligations.CmdReadsBackLastDescriptor := by
  refine ⟨fun s t d rest hp h => ?_, fun s rest hf hp => ?_⟩
  · obtain ⟨hf, hrun⟩ := step_next_of_request hp h
    obtain ⟨hcmd, -⟩ := runRequest_next_regs hrun
    obtain ⟨hmark, hpending, hreplies⟩ := runRequest_next_host hrun
    have hread : t.readReg (RegName.ofNumber 0) = .ok d := congrArg Except.ok hcmd
    exact ⟨_, step_regRead (hmark.trans hf) hpending hread, by simp [hreplies]⟩
  · exact ⟨_, _, step_interact hf hp, step_regRead (n := 0) hf rfl rfl, rfl⟩

/-- Settles O38: STATUS after a request is the word of an error code, and it can always be read. -/
theorem statusHoldsErrorCode : Obligations.StatusHoldsErrorCode := by
  refine ⟨fun s t d rest hp h => ?_, fun s v rest hf hp => step_interact hf hp⟩
  obtain ⟨hf, hrun⟩ := step_next_of_request hp h
  obtain ⟨hmark, hpending, hreplies⟩ := runRequest_next_host hrun
  obtain ⟨e, he⟩ := runRequest_next_status hrun
  have herr : t.err = e.code := by rw [State.err, he, err_statusWord]
  have hread : t.readReg (RegName.ofNumber 6) = .ok (statusWord e) := congrArg Except.ok he
  refine ⟨by rw [he, statusWord_high], by rw [herr]; exact code_mem e, _,
    step_regRead (hmark.trans hf) hpending hread, ?_⟩
  rw [herr]
  simp [hreplies, statusWord]

end Sys2Proof.Machine
end

section
/-! PROOF. What the statements of 20_memory.md need: when an operation completes, that a stored run is held, and that a word's bytes are
those of its two halves. -/

namespace Sys2Proof.Machine

/-! ### When an operation completes -/

/-- A register in the written state can be read (R14, R30). -/
theorem readReg_of_isWritten {s : State} {r : RegName} (h : s.isWritten r = true) : ∃ v, s.readReg r = .ok v := by
  cases r with
  | cmd | status => exact ⟨_, rfl⟩
  | src | dst | value | expect | result => exact ⟨_, (read_ok_iff _ _ _).2 ⟨h, rfl⟩⟩
  | reserved => cases h

/-- An operation whose operand registers and source bytes are written and whose ranges are in bounds and disjoint completes with its
effect (R122). -/
theorem exec_completes {i : Instr} {s : State} {bs : List Byte} (hi : i.WellFormed)
    (hregs : ∀ r ∈ (footprint i).regs, s.isWritten r = true) (hsrc : s.Fits s.src.val (footprint i).srcLen)
    (hdst : s.Fits s.dst.val (footprint i).dstLen)
    (hdisj : overlap s.srcAddr (footprint i).srcLen s.dstAddr (footprint i).dstLen = false)
    (hlen : bs.length = (footprint i).srcLen) (hbs : s.Holds s.src.val bs) :
    exec i s = .next (effectOf i s bs).complete := by
  have hread : s.mem.readRun s.srcAddr (footprint i).srcLen = .ok bs := (readRun_ok_iff _ _ _ _).2 ⟨hlen, hlen ▸ hbs⟩
  rw [exec_eq_request i s hi]
  exact request_pass ((regFault_none_iff s _).2 fun r hr => readReg_of_isWritten (hregs r hr))
    ((inBounds_iff _ _ _).2 hsrc) ((inBounds_iff _ _ _).2 hdst) hdisj hread

/-- Each 32-bit `…ToBytes` operation completes and stores the bytes of VALUE at DST (R93 to R95). -/
theorem exec_store32 {i : Instr} {s : State} {a v : Word} (hi : i ∈ [Instr.u32tob, Instr.i32tob, Instr.f32tob])
    (hdst : s.dst = ⟨a, true⟩) (hvalue : s.value = ⟨v, true⟩) (hfit : s.Fits a 4) :
    exec i s = .next (s.store a.toNat (bytes32 v)).complete := by
  have hu32 : exec .u32tob s = .next (s.store s.dst.val.toNat (bytes32 s.value.val)).complete :=
    exec_completes (bs := []) rfl (by simp [footprint, State.isWritten, hdst, hvalue]) (.inl rfl) (by rwa [hdst])
      (by simp [overlap, footprint]) rfl (by simp [State.Holds])
  rw [hdst, hvalue] at hu32
  simp only [List.mem_cons, List.not_mem_nil, or_false] at hi
  obtain rfl | rfl | rfl := hi <;> exact hu32

/-- B2U16 completes on the two bytes of `w` with RESULT = `zext_32(w)` (R86). -/
theorem exec_b2u16_of_holds {s : State} {a : Word} {w : BitVec 16} (hsrc : s.src = ⟨a, true⟩) (hfit : s.Fits a 2)
    (hbytes : s.Holds a (bytes16 w)) : exec .b2u16 s = .next (s.setResult (w.setWidth 32)).complete := by
  have hexec : exec .b2u16 s = .next (effectOf .b2u16 s (bytes16 w)).complete :=
    exec_completes rfl (by simp [footprint, State.isWritten, hsrc]) (by rwa [hsrc]) (.inl rfl)
      (by simp [overlap, footprint]) rfl (by rwa [hsrc])
  rw [hexec, effectOf, bigEndian_bytes16]
  simp

/-! ### The bytes of a stored word -/

/-- A run of bytes just stored is held where it was stored (R15). -/
theorem store_holds (s : State) (a : Word) (bs : List Byte) : (s.store a.toNat bs).Holds a bs := by
  intro k hk
  rw [store_mem, get_writeRun, if_pos (by omega), Nat.add_sub_cancel_left]

/-- Two runs, one after the other, are held exactly when each is held at its own address. -/
theorem holds_append_iff (s : State) {a b : Word} (xs ys : List Byte) (hb : b.toNat = a.toNat + xs.length) :
    s.Holds a (xs ++ ys) ↔ s.Holds a xs ∧ s.Holds b ys := by
  simp only [State.Holds, hb, List.length_append]
  constructor
  · refine fun h => ⟨fun k hk => ?_, fun k hk => ?_⟩
    · rw [h k (by omega), List.getElem?_append_left hk]
    · rw [Nat.add_assoc, h (xs.length + k) (by omega), List.getElem?_append_right (by omega), Nat.add_sub_cancel_left]
  · rintro ⟨hx, hy⟩ k hk
    by_cases hkx : k < xs.length
    · rw [hx k hkx, List.getElem?_append_left hkx]
    · rw [List.getElem?_append_right (by omega), ← hy (k - xs.length) (by omega)]
      congr 1
      omega

/-- A slice that lies inside a slice is a slice of the whole. -/
theorem extractLsb'_extractLsb' {n start len : Nat} (x : BitVec n) (start' : Nat) {len' : Nat} (h : start + len ≤ len') :
    (x.extractLsb' start' len').extractLsb' start len = x.extractLsb' (start' + start) len := by
  ext k hk
  simp [show start + k < len' by omega, Nat.add_assoc]

/-- A word's big-endian bytes are those of its high half, then those of its low half (R51). -/
theorem bytes32_eq_append (v : Word) : bytes32 v = bytes16 (v.extractLsb' 16 16) ++ bytes16 (v.extractLsb' 0 16) := by
  simp [bytes32, bytes16, extractLsb'_extractLsb']

/-- A stored word holds its high half at `a` and its low half at `a + 2` (R51, R53). -/
theorem store_bytes32_holds_halves (s : State) {a b : Word} (v : Word) (hb : b.toNat = a.toNat + 2) :
    (s.store a.toNat (bytes32 v)).Holds a (bytes16 (v.extractLsb' 16 16)) ∧
      (s.store a.toNat (bytes32 v)).Holds b (bytes16 (v.extractLsb' 0 16)) := by
  rw [← holds_append_iff _ _ _ hb, ← bytes32_eq_append]
  exact store_holds s a (bytes32 v)

/-! ### The obligations -/

/-- Settles O23: the four stored bytes are the high half's two at `a` and the low half's two at `a + 2`, and B2U16 reads either half. -/
theorem halvesOfStoredWord : Obligations.HalvesOfStoredWord := by
  intro s a b v hdst hvalue hfit hb i hi
  obtain ⟨hhigh, hlow⟩ := store_bytes32_holds_halves s v hb
  have hend : a.toNat + 4 ≤ s.memBytes := by omega
  exact ⟨_, exec_store32 hi hdst hvalue hfit,
    ⟨_, exec_b2u16_of_holds rfl (.inr (show a.toNat + 2 ≤ s.memBytes by omega)) hhigh, rfl⟩,
    ⟨_, exec_b2u16_of_holds rfl (.inr (show b.toNat + 2 ≤ s.memBytes by omega)) hlow, rfl⟩⟩

end Sys2Proof.Machine
end

section
/-! PROOF. What the statements of 30_encoding.md need: decoding an encoding, that the legal descriptors are exactly the encodings of
well-formed operations, what an illegal request is, and what each operand and each line of the assembler stands for. -/

namespace Sys2Proof.Machine

/-! ### Decoding -/

/-- An OP code of a fixed-width conversion selects that conversion (R67). -/
theorem opForm_opcode_of_mem_conversions : ∀ i ∈ conversions, opForm i.opcode = .fixed i := by decide

theorem width_length_of_mem_conversions : ∀ i ∈ conversions, i.width = 0#4 ∧ i.length = 0#16 := by decide

theorem wellFormed_of_mem_conversions : ∀ i ∈ conversions, i.WellFormed := by decide

section
variable {d : Word} (hrsv : rsvField d = 0#4)
include hrsv

theorem decode_of_fixed {i : Instr} (h : opForm (opField d) = .fixed i) : decode d = fixedForm i d := by
  simp [decode, hrsv, h]

theorem decode_of_copy (h : opField d = 0x30#8) : decode d = runForm .copy d := by
  simp [decode, hrsv, (opForm_copy_iff _).2 h]

theorem decode_of_truncpad (h : opField d = 0x31#8) : decode d = padForm d := by
  simp [decode, hrsv, (opForm_truncpad_iff _).2 h]

theorem decode_of_crcgen (h : opField d = 0x40#8) : decode d = runForm .crcgen d := by
  simp [decode, hrsv, (opForm_crcgen_iff _).2 h]

theorem decode_of_crcchk (h : opField d = 0x41#8) : decode d = runForm .crcchk d := by
  simp [decode, hrsv, (opForm_crcchk_iff _).2 h]

end

theorem decode_encode_of_mem_conversions {i : Instr} (hi : i ∈ conversions) : decode (encode i) = .ok i := by
  obtain ⟨hop, hw, hrsv, hl⟩ := Laws.LegalDescriptor.fields i
  obtain ⟨hw0, hl0⟩ := width_length_of_mem_conversions i hi
  rw [decode_of_fixed hrsv (hop ▸ opForm_opcode_of_mem_conversions i hi)]
  exact (fixedForm_ok_iff _ _ _).2 ⟨hw.trans hw0, hl.trans hl0, rfl⟩

/-- The decoder inverts the encoder on well-formed operations (R76): no field of a descriptor is dropped. -/
theorem decode_encode {i : Instr} (h : i.WellFormed) : decode (encode i) = .ok i := by
  obtain ⟨hop, hw, hrsv, hl⟩ := Laws.LegalDescriptor.fields i
  cases i with
  | copy len => exact (decode_of_copy hrsv hop).trans ((runForm_ok_iff _ _ _).2 ⟨hw, congrArg _ hl⟩)
  | crcgen len => exact (decode_of_crcgen hrsv hop).trans ((runForm_ok_iff _ _ _).2 ⟨hw, congrArg _ hl⟩)
  | crcchk len => exact (decode_of_crcchk hrsv hop).trans ((runForm_ok_iff _ _ _).2 ⟨hw, congrArg _ hl⟩)
  | truncpad w len =>
    exact (decode_of_truncpad hrsv hop).trans ((padForm_ok_iff _ _).2 ⟨hw.symm ▸ h, congrArg₂ _ hw hl⟩)
  | _ => exact decode_encode_of_mem_conversions (by decide)

/-- A descriptor known to be the encoding of an operation decodes to it. -/
theorem decode_of_encode_eq {i : Instr} {d : Word} (h : i.WellFormed) (hd : encode i = d) : decode d = .ok i :=
  hd ▸ decode_encode h

/-! ### The legal descriptors -/

theorem legalWidth_iff (w : BitVec 4) : legalWidth w = true ↔ w ∈ [1#4, 2#4, 4#4, 8#4] := by
  revert w; decide

/-- R72's predicate in the words of the decoder. -/
theorem legalR72_iff (d : Word) :
    LegalR72 d ↔ rsvField d = 0#4 ∧
      ((opField d ∈ conversions.map Instr.opcode ∧ wField d = 0#4 ∧ lenField d = 0#16) ∨
        ((opField d = 0x30#8 ∨ opField d = 0x40#8 ∨ opField d = 0x41#8) ∧ wField d = 0#4) ∨
        (opField d = 0x31#8 ∧ legalWidth (wField d) = true)) := by
  have hrun : opField d ∈ [0x30#8, 0x40#8, 0x41#8] ↔ opField d = 0x30#8 ∨ opField d = 0x40#8 ∨ opField d = 0x41#8 := by simp
  rw [← hrun, legalWidth_iff]
  rfl

/-- A well-formed operation whose fields are those of a descriptor with RSV = 0 encodes to it (R66). -/
theorem encode_eq_of_fields {i : Instr} {d : Word} (hrsv : rsvField d = 0#4) (hop : opField d = i.opcode)
    (hw : wField d = i.width) (hl : lenField d = i.length) : encode i = d := by
  rw [encode, ← hop, ← hw, ← hl, encodeFields_fields d hrsv]

/-- Every legal descriptor is the encoding of a well-formed operation (R72, R76). -/
theorem exists_encode_of_legalR72 {d : Word} (h : LegalR72 d) : ∃ i : Instr, i.WellFormed ∧ encode i = d := by
  obtain ⟨hrsv, ⟨hop, hw, hl⟩ | ⟨hop | hop | hop, hw⟩ | ⟨hop, hw⟩⟩ := (legalR72_iff d).1 h
  · obtain ⟨i, hi, hopi⟩ := List.mem_map.1 hop
    obtain ⟨hwi, hli⟩ := width_length_of_mem_conversions i hi
    exact ⟨i, wellFormed_of_mem_conversions i hi, encode_eq_of_fields hrsv hopi.symm (hw.trans hwi.symm) (hl.trans hli.symm)⟩
  · exact ⟨.copy (lenField d), rfl, encode_eq_of_fields hrsv hop hw rfl⟩
  · exact ⟨.crcgen (lenField d), rfl, encode_eq_of_fields hrsv hop hw rfl⟩
  · exact ⟨.crcchk (lenField d), rfl, encode_eq_of_fields hrsv hop hw rfl⟩
  · exact ⟨.truncpad (wField d) (lenField d), hw, encode_eq_of_fields hrsv hop rfl rfl⟩

/-- The decoder accepts only legal descriptors (R72). -/
theorem legalR72_of_decode_ok {d : Word} {i : Instr} (h : decode d = .ok i) : LegalR72 d := by
  obtain ⟨hrsv, ⟨hi, hop, hw, hl⟩ | ⟨hop, hw, -⟩ | ⟨hop, hw, -⟩ | ⟨hop, hw, -⟩ | ⟨hop, hw, -⟩⟩ := decode_ok_cases h <;>
    refine (legalR72_iff d).2 ⟨hrsv, ?_⟩
  · exact .inl ⟨List.mem_map.2 ⟨i, hi, hop.symm⟩, hw, hl⟩
  · exact .inr (.inl ⟨.inl hop, hw⟩)
  · exact .inr (.inr ⟨hop, hw⟩)
  · exact .inr (.inl ⟨.inr (.inl hop), hw⟩)
  · exact .inr (.inl ⟨.inr (.inr hop), hw⟩)

/-- The decoder rejects every other descriptor (R74). -/
theorem decode_error_of_not_legalR72 {d : Word} (h : ¬ LegalR72 d) : ∃ e, decode d = .error e := by
  cases hd : decode d with
  | ok i => exact absurd (legalR72_of_decode_ok hd) h
  | error e => exact ⟨e, rfl⟩

/-- The encoder's word is `LEN << 16 | W << 8 | OP` (R76). -/
theorem encodeFields_eq_or (op : BitVec 8) (w : BitVec 4) (len : BitVec 16) :
    encodeFields op w len = (len.setWidth 32 <<< 16) ||| (w.setWidth 32 <<< 8) ||| op.setWidth 32 := by
  apply BitVec.eq_of_getLsbD_eq
  intro k hk
  simp only [getLsbD_encodeFields, BitVec.getLsbD_or, BitVec.getLsbD_shiftLeft, BitVec.getLsbD_setWidth]
  by_cases hop : k < 8
  · simp [hop, hk, show k < 16 by omega]
  have hop0 : op.getLsbD k = false := BitVec.getLsbD_of_ge _ _ (by omega)
  by_cases hw : k < 12
  · simp [hop, hw, hk, hop0, show k < 16 by omega, show k - 8 < 32 by omega]
  have hw0 : w.getLsbD (k - 8) = false := BitVec.getLsbD_of_ge _ _ (by omega)
  by_cases hrsv : k < 16
  · simp [hop, hw, hrsv, hop0, hw0]
  · simp [hop, hw, hrsv, hk, hop0, hw0, show k - 16 < 32 by omega]

/-! ### Illegal requests -/

/-- A request whose descriptor is not legal stores it in CMD and raises IllegalRequest, whatever the registers hold (R73). -/
theorem runRequest_of_not_legalR72 {d : Word} (s : State) (h : ¬ LegalR72 d) :
    runRequest d s = .next ((s.setCmd d).raise .illegalRequest) := by
  obtain ⟨e, he⟩ := decode_error_of_not_legalR72 h
  rw [runRequest, he]

/-! ### The operands of the assembler -/

theorem lenOperand_of_le {n : Nat} (h : n ≤ 65535) : lenOperand n = some (BitVec.ofNat 16 n) := if_pos (by omega)

theorem lenOperand_of_gt {n : Nat} (h : 65535 < n) : lenOperand n = none := if_neg (by omega)

theorem widthOperand_of_legal {n : Nat} (h : n = 1 ∨ n = 2 ∨ n = 4 ∨ n = 8) : widthOperand n = some (BitVec.ofNat 4 n) :=
  if_pos h

theorem widthOperand_of_illegal {n : Nat} (h : ¬ (n = 1 ∨ n = 2 ∨ n = 4 ∨ n = 8)) : widthOperand n = none := if_neg h

theorem wordOperand_of_lt {n : Nat} (h : n < 2 ^ 32) : wordOperand n = some (BitVec.ofNat 32 n) := if_pos h

@[simp] theorem wordOperand_toNat (a : Word) : wordOperand a.toNat = some a := by
  rw [wordOperand_of_lt a.isLt, BitVec.ofNat_toNat, BitVec.setWidth_eq]

@[simp] theorem byteOperand_toNat (b : Byte) : byteOperand b.toNat = some b := by
  rw [byteOperand, if_pos b.isLt, BitVec.ofNat_toNat, BitVec.setWidth_eq]

/-- The address `k` bytes above a word (R79). -/
theorem ofNat_toNat_add (a : Word) (k : Nat) : BitVec.ofNat 32 (a.toNat + k) = a + BitVec.ofNat 32 k := by
  rw [BitVec.ofNat_add, BitVec.ofNat_toNat, BitVec.setWidth_eq]

/-! ### The lines of the assembler -/

/-- The lines of COPY, CRCGEN and CRCCHK: a write of CMD if the length operand is taken (R77). -/
theorem assemble_runLine :
    ∀ p ∈ [("COPY", 0x30#8), ("CRCGEN", 0x40#8), ("CRCCHK", 0x41#8)], ∀ len : Nat,
      assemble [.name p.1, .num len] = (lenOperand len).map fun l => [.regWrite 0 (encodeFields p.2 0#4 l)] := by
  simp only [List.forall_mem_cons, List.not_mem_nil, false_implies, implies_true, and_true]
  exact ⟨fun _ => rfl, fun _ => rfl, fun _ => rfl⟩

/-- The line of TRUNCPAD: a write of CMD if both operands are taken, the width first (R77). -/
theorem assemble_truncpad (w len : Nat) :
    assemble [.name "TRUNCPAD", .num w, .num len] =
      (widthOperand w).bind fun x => (lenOperand len).bind fun l => some [.regWrite 0 (encodeFields 0x31#8 x l)] := rfl

/-- The line of GET16: SRC, the request, a read of RESULT (R79). -/
theorem assemble_get16 (a : Nat) :
    assemble [.name "GET16", .num a] =
      (wordOperand a).map fun w => [.regWrite 1 w, .regWrite 0 (encode .b2u16), .regRead 5] := rfl

/-- The line of PUT16: DST, VALUE, the request (R79). -/
theorem assemble_put16 (a v : Nat) :
    assemble [.name "PUT16", .num a, .num v] =
      (wordOperand a).bind fun w =>
        (wordOperand v).bind fun x => some [.regWrite 2 w, .regWrite 3 x, .regWrite 0 (encode .u16tob)] := rfl

/-- The line of CRC2: SRC, the request (R79). -/
theorem assemble_crc2 (a : Nat) :
    assemble [.name "CRC2", .num a] =
      (wordOperand a).map fun w => [.regWrite 1 w, .regWrite 0 (encode (.crcgen 2#16))] := rfl

/-- The MW line writes the listed bytes from its address up (R79). -/
theorem assemble_mw (a b : Nat) (ts : List Token) :
    assemble (.name "MW" :: .num a :: .num b :: ts) = writeBytes a (.num b :: ts) := by
  cases ts <;> rfl

/-- The MR line with a count reads that many bytes from its address up (R79). -/
theorem assemble_mr (a n : Nat) : assemble [.name "MR", .num a, .num n] = readBytes a n := rfl

/-- Bytes at addresses that fit 32 bits are written one by one, upwards (R79). -/
theorem writeBytes_eq_mapIdx (bs : List Byte) {a : Nat} (h : a + bs.length ≤ 2 ^ 32) :
    writeBytes a (bs.map fun x => .num x.toNat) = some (bs.mapIdx fun k x => .memWrite (BitVec.ofNat 32 (a + k)) x) := by
  induction bs generalizing a with
  | nil => rfl
  | cons b bs ih =>
    rw [List.length_cons] at h
    have hrest := ih (a := a + 1) (by omega)
    simp [writeBytes, wordOperand_of_lt (show a < 2 ^ 32 by omega), hrest, List.mapIdx_cons, Nat.add_assoc, Nat.add_comm 1]

/-- Bytes at addresses that fit 32 bits are read one by one, upwards (R79). -/
theorem readBytes_eq_map_range (n : Nat) {a : Nat} (h : a + n ≤ 2 ^ 32) :
    readBytes a n = some ((List.range n).map fun k => .memRead (BitVec.ofNat 32 (a + k))) := by
  induction n generalizing a with
  | zero => rfl
  | succ n ih =>
    have hrest := ih (a := a + 1) (by omega)
    simp [readBytes, wordOperand_of_lt (show a < 2 ^ 32 by omega), hrest, List.range_succ_eq_map, Function.comp_def,
      Nat.add_assoc, Nat.add_comm 1]

/-! ### The obligations: the descriptor -/

/-- Settles O1: each field of an encoding is the operation's own, and OP selects the operation. -/
theorem decodeOfEncodeIsTheOperation : Obligations.DecodeOfEncodeIsTheOperation := fun _ h => decode_encode h

/-- Settles O2: a legal descriptor is the encoding of a well-formed operation, which its decoding gives back. -/
theorem decoderAcceptsExactlyLegal : Obligations.DecoderAcceptsExactlyLegal := by
  refine ⟨fun d => ⟨fun h => ?_, decode_error_of_not_legalR72⟩, encodeFields_eq_or⟩
  obtain ⟨i, hi, rfl⟩ := exists_encode_of_legalR72 h
  obtain ⟨hop, hw, -, hl⟩ := Laws.LegalDescriptor.fields i
  exact ⟨i, decode_encode hi, hi, hop.symm, hw.symm, hl.symm, rfl⟩

/-- Settles O3: the first five words are encodings, and the others fail the check that names the reason. -/
theorem writtenWordsDecode : Obligations.WrittenWordsDecode :=
  ⟨decode_of_encode_eq rfl rfl, decode_of_encode_eq rfl rfl, decode_of_encode_eq rfl rfl, decode_of_encode_eq rfl rfl,
    decode_of_encode_eq rfl rfl, rfl, rfl, rfl, rfl⟩

/-! ### The obligations: illegal requests -/

/-- Settles O25: the decoder rejects the descriptor, so the request raises before any register is read. -/
theorem illegalDescriptorRaises : Obligations.IllegalDescriptorRaises := by
  intro s d rest hf hp hd
  rw [step_interact hf hp]
  exact runRequest_of_not_legalR72 (s.setPending rest) hd

/-- Settles O52: the term is not well formed, and the decoder gives only well-formed operations. -/
theorem truncpadTermOfIllegalWidthRaises : Obligations.TruncpadTermOfIllegalWidthRaises := by
  intro w len hw
  have hill : ¬ (Instr.truncpad w len).WellFormed := fun h => hw ((legalWidth_iff w).1 h)
  exact ⟨fun d hd => hill (wellFormed_of_decode_ok hd), fun s => exec_of_illegal_width _ s hill⟩

/-! ### The obligations: the assembler -/

/-- Settles O50: a line is the write of its encoding exactly when its operands are taken. -/
theorem requestLinesAssemble : Obligations.RequestLinesAssemble := by
  refine ⟨by decide, fun p hp len => ⟨fun h => ?_, fun h => ?_⟩, fun w len => ⟨fun ⟨hw, hl⟩ => ?_, fun h => ?_⟩⟩
  · rw [assemble_runLine p hp, lenOperand_of_le h]
    rfl
  · rw [assemble_runLine p hp, lenOperand_of_gt h]
    rfl
  · rw [assemble_truncpad, widthOperand_of_legal hw, lenOperand_of_le hl]
    rfl
  · rw [assemble_truncpad]
    by_cases hw : w = 1 ∨ w = 2 ∨ w = 4 ∨ w = 8
    · rw [lenOperand_of_gt (by omega)]
      exact Option.bind_fun_none _
    · rw [widthOperand_of_illegal hw, Option.bind_none]

/-- Settles O51: MW and MR go up one address at a time, and the other three lines are fixed lists of interactions. -/
theorem pseudoLinesExpand : Obligations.PseudoLinesExpand := by
  refine ⟨fun a b bs h => ?_, fun a n _ h => ?_, fun a => ?_, fun a v => ?_, fun a => ?_⟩
  · have hbytes := writeBytes_eq_mapIdx (b :: bs) (a := a.toNat) (by rw [List.length_cons]; omega)
    rw [assemble_mw, ← List.map_cons (f := fun x : Byte => Token.num x.toNat), hbytes]
    simp [ofNat_toNat_add, List.mapIdx_cons]
  · rw [assemble_mr, readBytes_eq_map_range n h]
    simp [ofNat_toNat_add]
  · rw [assemble_get16, wordOperand_toNat]
    rfl
  · rw [assemble_put16, wordOperand_toNat, wordOperand_toNat]
    rfl
  · rw [assemble_crc2, wordOperand_toNat]
    rfl

/-- Settles O53: a count of 0 is `readBytes` of no byte. -/
theorem mrOfNoByteStandsForNoRead : Obligations.MrOfNoByteStandsForNoRead := fun a => assemble_mr a 0

end Sys2Proof.Machine
end

section
/-! PROOF. What the statements of 40_convert.md need: when an operation faults or raises, in the order of R122's checks, and what a load
and a store of 16 or 32 bits complete with. -/

namespace Sys2Proof.Machine

/-! ### How an operation stops -/

theorem inBounds_eq_false_iff (s : State) (a : Word) (n : Nat) : inBounds s.memBytes a.toNat n = false ↔ ¬ s.Fits a n := by
  rw [← Bool.not_eq_true, inBounds_iff]

theorem overlap_zero_right (a n b : Nat) : overlap a n b 0 = false := by simp [overlap]

theorem regFault_of_isWritten {s : State} {rs : List RegName} (h : ∀ r ∈ rs, s.isWritten r = true) : s.regFault rs = none :=
  (regFault_none_iff s rs).2 fun r hr => readReg_of_isWritten (h r hr)

/-- Reading an unwritten register is its fault (R31). -/
theorem read_of_unwritten {x : Reg} (r : RegName) (h : x.written = false) : x.read r = .error (.unwrittenRegister r) :=
  (read_error_iff _ _ _).2 ⟨h, rfl⟩

section
variable {i : Instr} {s : State} (hi : i.WellFormed)
include hi

/-- R122 step 2: the operation faults on the first operand register that cannot be read. -/
theorem exec_fault_of_regFault {f : Fault} (h : s.regFault (footprint i).regs = some f) : exec i s = .fault f := by
  simp [exec_eq_request i s hi, State.request, State.check, h]

variable (hregs : ∀ r ∈ (footprint i).regs, s.isWritten r = true)
include hregs

/-- R122 step 3: a range out of bounds raises BoundsError, and only STATUS changes. -/
theorem exec_boundsError_of_not_fits (h : ¬ s.Fits s.src.val (footprint i).srcLen ∨ ¬ s.Fits s.dst.val (footprint i).dstLen) :
    exec i s = .next { s with status := 2#32 } := by
  rw [← inBounds_eq_false_iff, ← inBounds_eq_false_iff] at h
  have hcheck : s.check (footprint i).regs (footprint i).srcLen (footprint i).dstLen = .raise .boundsError := by
    obtain h | h := h <;> simp [State.check, regFault_of_isWritten hregs, State.srcAddr, State.dstAddr, h]
  rw [exec_eq_request i s hi, State.request, hcheck]
  rfl

/-- R122 step 5: with ranges in bounds and disjoint, the lowest unwritten source byte faults at its address. -/
theorem exec_fault_of_firstUnwritten {k : Nat} (hsrc : s.Fits s.src.val (footprint i).srcLen)
    (hdst : s.Fits s.dst.val (footprint i).dstLen)
    (hdisj : overlap s.srcAddr (footprint i).srcLen s.dstAddr (footprint i).dstLen = false)
    (hk : k < (footprint i).srcLen) (h : s.FirstUnwritten s.src.val k) :
    exec i s = .fault (.unwrittenMemory (s.src.val.toNat + k)) := by
  obtain ⟨hnone, hbelow⟩ := h
  have hread : s.mem.readRun s.srcAddr (footprint i).srcLen = .error (s.src.val.toNat + k) :=
    (readRun_error_iff _ _ _ _).2 ⟨k, hk, rfl, hnone, fun j hj => Option.isSome_iff_exists.1 (hbelow j hj)⟩
  have hsrc' : inBounds s.memBytes s.srcAddr (footprint i).srcLen = true := (inBounds_iff _ _ _).2 hsrc
  have hdst' : inBounds s.memBytes s.dstAddr (footprint i).dstLen = true := (inBounds_iff _ _ _).2 hdst
  simp [exec_eq_request i s hi, State.request, State.check, regFault_of_isWritten hregs, hsrc', hdst', hdisj, hread]

end

/-- The stops of an operation whose row of R75 is SRC and `n` bytes at SRC. -/
theorem sourceStops_of_footprint {i : Instr} {n : Nat} (hi : i.WellFormed) (hfoot : footprint i = ⟨[.src], n, 0⟩) :
    SourceStops i n := by
  intro s
  have hregs (hw : s.src.written = true) : ∀ r ∈ (footprint i).regs, s.isWritten r = true := by
    simpa [hfoot, State.isWritten] using hw
  refine ⟨fun hw => ?_, fun hw hfit => ?_, fun hw hfit k hk hfirst => ?_⟩
  · exact exec_fault_of_regFault hi (by simp [hfoot, State.regFault, State.readReg, read_of_unwritten _ hw])
  · exact exec_boundsError_of_not_fits hi (hregs hw) (.inl (by rwa [hfoot]))
  · exact exec_fault_of_firstUnwritten hi (hregs hw) (by rwa [hfoot]) (.inl (by rw [hfoot]))
      (by rw [hfoot]; exact overlap_zero_right _ _ _) (by rwa [hfoot]) hfirst

/-- The stops of an operation whose row of R75 is DST, VALUE and `n` bytes at DST. -/
theorem storeStops_of_footprint {i : Instr} {n : Nat} (hi : i.WellFormed) (hfoot : footprint i = ⟨[.dst, .value], 0, n⟩) :
    StoreStops i n := by
  intro s
  have hread (hd : s.dst.written = true) : s.dst.read .dst = .ok s.dst.val := (read_ok_iff _ _ _).2 ⟨hd, rfl⟩
  refine ⟨fun hd => ?_, fun hd hv => ?_, fun hd hv hfit => ?_⟩
  · exact exec_fault_of_regFault hi (by simp [hfoot, State.regFault, State.readReg, read_of_unwritten _ hd])
  · exact exec_fault_of_regFault hi (by simp [hfoot, State.regFault, State.readReg, hread hd, read_of_unwritten _ hv])
  · exact exec_boundsError_of_not_fits hi (by simp [hfoot, State.isWritten, hd, hv]) (.inr (by rwa [hfoot]))

/-! ### Bytes to value -/

/-- An operation whose row of R75 is SRC and the bytes `bs` at SRC completes with its effect on them. -/
theorem exec_of_source_holds {i : Instr} {s : State} {a : Word} {bs : List Byte} (hi : i.WellFormed)
    (hfoot : footprint i = ⟨[.src], bs.length, 0⟩) (hsrc : s.src = ⟨a, true⟩) (hfit : s.Fits a bs.length)
    (hbytes : s.Holds a bs) : exec i s = .next (effectOf i s bs).complete :=
  exec_completes hi (by simp [hfoot, State.isWritten, hsrc]) (by rwa [hfoot, hsrc]) (.inl (by rw [hfoot]))
    (by rw [hfoot]; exact overlap_zero_right _ _ _) (by rw [hfoot]) (by rwa [hsrc])

/-- B2I16 completes on the two bytes of `w` with RESULT = `sext_32(w)` (R87). -/
theorem exec_b2i16_of_holds {s : State} {a : Word} {w : BitVec 16} (hsrc : s.src = ⟨a, true⟩) (hfit : s.Fits a 2)
    (hbytes : s.Holds a (bytes16 w)) : exec .b2i16 s = .next (s.setResult (w.signExtend 32)).complete := by
  rw [exec_of_source_holds (i := .b2i16) (bs := bytes16 w) rfl rfl hsrc hfit hbytes, effectOf, bigEndian_bytes16]
  simp

/-- A written register is its value beside a set mark. -/
theorem eq_of_written {x : Reg} (h : x.written = true) : x = ⟨x.val, true⟩ := by rw [← h]

/-- Two bytes put together big-endian come apart again (R13). -/
theorem bytes16_append_bytes (b0 b1 : Byte) : bytes16 (b0 ++ b1) = [b0, b1] :=
  congrArg₂ (fun x y => [x, y]) BitVec.extractLsb'_append_eq_left BitVec.extractLsb'_append_eq_right

/-- Each 32-bit load completes with the big-endian value of the four bytes at SRC in RESULT (R88 to R90). -/
theorem exec_load32 {i : Instr} {s : State} {a : Word} {bs : List Byte} (hi : i ∈ [Instr.b2u32, Instr.b2i32, Instr.b2f32])
    (hlen : bs.length = 4) (hsrc : s.src = ⟨a, true⟩) (hfit : s.Fits a 4) (hbytes : s.Holds a bs) :
    exec i s = .next (s.setResult (bigEndian bs)).complete := by
  have hu32 : exec .b2u32 s = .next (s.setResult (bigEndian bs)).complete :=
    exec_of_source_holds rfl (by rw [hlen]; rfl) hsrc (by rwa [hlen]) hbytes
  simp only [List.mem_cons, List.not_mem_nil, or_false] at hi
  obtain rfl | rfl | rfl := hi <;> exact hu32

theorem exec_load32_bytes {i : Instr} (hi : i ∈ [Instr.b2u32, Instr.b2i32, Instr.b2f32]) (s : State) (b0 b1 b2 b3 : Byte)
    (hsrc : s.src.written = true) (hfit : s.Fits s.src.val 4) (hbytes : s.Holds s.src.val [b0, b1, b2, b3]) :
    exec i s = .next { s with result := ⟨b0 ++ b1 ++ b2 ++ b3, true⟩, status := 0#32 } := by
  rw [← bigEndian_four]
  exact exec_load32 hi rfl (eq_of_written hsrc) hfit hbytes

/-! ### Value to bytes -/

/-- The bytes of the low half are taken from VALUE itself (R91). -/
theorem bytes16_setWidth (v : Word) : bytes16 (v.setWidth 16) = [v.extractLsb' 8 8, v.extractLsb' 0 8] := by
  rw [bytes16, BitVec.setWidth_eq_extractLsb' (by decide), extractLsb'_extractLsb' _ _ (by decide),
    extractLsb'_extractLsb' _ _ (by decide)]

/-- Each 16-bit `…ToBytes` operation completes and stores the bytes of VALUE's low half at DST (R91, R92). -/
theorem exec_store16 {i : Instr} {s : State} {a v : Word} (hi : i ∈ [Instr.u16tob, Instr.i16tob])
    (hdst : s.dst = ⟨a, true⟩) (hvalue : s.value = ⟨v, true⟩) (hfit : s.Fits a 2) :
    exec i s = .next (s.store a.toNat (bytes16 (v.setWidth 16))).complete := by
  have hu16 : exec .u16tob s = .next (s.store s.dst.val.toNat (bytes16 (s.value.val.setWidth 16))).complete :=
    exec_completes (bs := []) rfl (by simp [footprint, State.isWritten, hdst, hvalue]) (.inl rfl) (by rwa [hdst])
      (by simp [overlap, footprint]) rfl (by simp [State.Holds])
  rw [hdst, hvalue] at hu16
  simp only [List.mem_cons, List.not_mem_nil, or_false] at hi
  obtain rfl | rfl := hi <;> exact hu16

/-- An operation whose completed effect is a store at DST changes those bytes and STATUS, and nothing else (R57). -/
theorem completesStoring_of_exec {i : Instr} {s : State} {bs : List Byte}
    (h : exec i s = .next (s.store s.dst.val.toNat bs).complete) : CompletesStoring i s bs :=
  ⟨_, h, store_holds s s.dst.val bs, fun _ hx => get_writeRun_outside s.mem bs hx⟩

theorem completesStoring_low_half {i : Instr} (hi : i ∈ [Instr.u16tob, Instr.i16tob]) (s : State)
    (hdst : s.dst.written = true) (hvalue : s.value.written = true) (hfit : s.Fits s.dst.val 2) :
    CompletesStoring i s [s.value.val.extractLsb' 8 8, s.value.val.extractLsb' 0 8] := by
  rw [← bytes16_setWidth]
  exact completesStoring_of_exec (exec_store16 hi (eq_of_written hdst) (eq_of_written hvalue) hfit)

theorem completesStoring_word {i : Instr} (hi : i ∈ [Instr.u32tob, Instr.i32tob, Instr.f32tob]) (s : State)
    (hdst : s.dst.written = true) (hvalue : s.value.written = true) (hfit : s.Fits s.dst.val 4) :
    CompletesStoring i s (bytes32 s.value.val) :=
  completesStoring_of_exec (exec_store32 hi (eq_of_written hdst) (eq_of_written hvalue) hfit)

/-! ### The obligations -/

/-- Settles O22: the store leaves the value's bytes at DST, which is SRC, and the load puts them together again. -/
theorem conversionsRoundTrip : Obligations.ConversionsRoundTrip := by
  intro s a v hdst hsrc hvalue
  constructor
  · intro hfit i hi
    have hbytes := store_holds s a (bytes16 (v.setWidth 16))
    exact ⟨_, exec_store16 hi hdst hvalue hfit, exec_b2u16_of_holds hsrc hfit hbytes, exec_b2i16_of_holds hsrc hfit hbytes⟩
  · intro hfit i hi j hj
    have hload : exec j (s.store a.toNat (bytes32 v)).complete = _ :=
      exec_load32 hj rfl hsrc hfit (store_holds s a (bytes32 v))
    rw [bigEndian_bytes32] at hload
    exact ⟨_, exec_store32 hi hdst hvalue hfit, hload⟩

/-- Settles O4: the two bytes at SRC are those of their concatenation, which B2U16 zero-extends. -/
theorem b2u16LoadsZeroExtended : Obligations.B2u16LoadsZeroExtended := by
  refine ⟨decode_of_encode_eq rfl rfl, sourceStops_of_footprint rfl rfl, fun s b0 b1 hsrc hfit hbytes => ?_⟩
  rw [← bytes16_append_bytes] at hbytes
  exact exec_b2u16_of_holds (eq_of_written hsrc) hfit hbytes

/-- Settles O5: as O4, with the sign extension of B2I16. -/
theorem b2i16LoadsSignExtended : Obligations.B2i16LoadsSignExtended := by
  refine ⟨decode_of_encode_eq rfl rfl, sourceStops_of_footprint rfl rfl, fun s b0 b1 hsrc hfit hbytes => ?_⟩
  rw [← bytes16_append_bytes] at hbytes
  exact exec_b2i16_of_holds (eq_of_written hsrc) hfit hbytes

/-- Settles O6: the operation is SRC and four bytes at SRC in the table of R75. -/
theorem b2u32LoadsFourBytes : Obligations.B2u32LoadsFourBytes :=
  ⟨decode_of_encode_eq rfl rfl, sourceStops_of_footprint rfl rfl, exec_load32_bytes (by decide)⟩

/-- Settles O7: the load of O6 under the other reading of RESULT. -/
theorem b2i32LoadsFourBytes : Obligations.B2i32LoadsFourBytes :=
  ⟨decode_of_encode_eq rfl rfl, sourceStops_of_footprint rfl rfl, exec_load32_bytes (by decide)⟩

/-- Settles O8: a bit cast, so the load of O6 for every bit pattern. -/
theorem b2f32LoadsExactBits : Obligations.B2f32LoadsExactBits :=
  ⟨decode_of_encode_eq rfl rfl, sourceStops_of_footprint rfl rfl, exec_load32_bytes (by decide)⟩

/-- Settles O9: the stored bytes are those of VALUE's low half. -/
theorem u16tobStoresLowHalf : Obligations.U16tobStoresLowHalf :=
  ⟨decode_of_encode_eq rfl rfl, storeStops_of_footprint rfl rfl, completesStoring_low_half (by decide)⟩

/-- Settles O10: the same bytes as O9, from the signed value's 16-bit pattern. -/
theorem i16tobStoresLowHalf : Obligations.I16tobStoresLowHalf :=
  ⟨decode_of_encode_eq rfl rfl, storeStops_of_footprint rfl rfl, completesStoring_low_half (by decide)⟩

/-- Settles O11: the stored bytes are those of the whole of VALUE. -/
theorem u32tobStoresBigEndian : Obligations.U32tobStoresBigEndian :=
  ⟨decode_of_encode_eq rfl rfl, storeStops_of_footprint rfl rfl, completesStoring_word (by decide)⟩

/-- Settles O12: the same bytes as O11, from the two's complement pattern. -/
theorem i32tobStoresBigEndian : Obligations.I32tobStoresBigEndian :=
  ⟨decode_of_encode_eq rfl rfl, storeStops_of_footprint rfl rfl, completesStoring_word (by decide)⟩

/-- Settles O13: a bit cast, so the bytes of O11 for every bit pattern. -/
theorem f32tobStoresExactBits : Obligations.F32tobStoresExactBits :=
  ⟨decode_of_encode_eq rfl rfl, storeStops_of_footprint rfl rfl, completesStoring_word (by decide)⟩

end Sys2Proof.Machine
end

section
/-! PROOF. What the statements of 41_copy.md need: when two ranges share a byte, how a copy stops and what it completes with, the
copies' descriptors, and big-endian numbers behind zero bytes. -/

namespace Sys2Proof.Machine

/-! ### Ranges that share a byte -/

/-- R100's formula says that the ranges share a byte: then the higher of their first addresses is one. -/
theorem overlap_iff_shares (a b : Word) (n m : Nat) : overlap a.toNat n b.toNat m = true ↔ Shares a n b m := by
  rw [overlap_iff]
  constructor
  · rintro ⟨hn, hm, hab, hba⟩
    exact ⟨max a.toNat b.toNat, by omega, by omega, by omega, by omega⟩
  · rintro ⟨x, hax, hxa, hbx, hxb⟩
    omega

theorem overlap_eq_false_iff (a b : Word) (n m : Nat) : overlap a.toNat n b.toNat m = false ↔ ¬ Shares a n b m := by
  rw [← Bool.not_eq_true, overlap_iff_shares]

/-! ### How a copy stops -/

/-- R122 step 4: ranges in bounds that share a byte raise OverlapError, and only STATUS changes. -/
theorem exec_overlapError_of_shares {i : Instr} {s : State} (hi : i.WellFormed)
    (hregs : ∀ r ∈ (footprint i).regs, s.isWritten r = true) (hsrc : s.Fits s.src.val (footprint i).srcLen)
    (hdst : s.Fits s.dst.val (footprint i).dstLen) (h : Shares s.src.val (footprint i).srcLen s.dst.val (footprint i).dstLen) :
    exec i s = .next { s with status := 3#32 } := by
  have hsrc' : inBounds s.memBytes s.srcAddr (footprint i).srcLen = true := (inBounds_iff _ _ _).2 hsrc
  have hdst' : inBounds s.memBytes s.dstAddr (footprint i).dstLen = true := (inBounds_iff _ _ _).2 hdst
  have hover : overlap s.srcAddr (footprint i).srcLen s.dstAddr (footprint i).dstLen = true := (overlap_iff_shares _ _ _ _).2 h
  have hcheck : s.check (footprint i).regs (footprint i).srcLen (footprint i).dstLen = .raise .overlapError := by
    simp [State.check, regFault_of_isWritten hregs, hsrc', hdst', hover]
  rw [exec_eq_request i s hi, State.request, hcheck]
  rfl

section
variable {i : Instr} {n m : Nat} (hi : i.WellFormed) (hfoot : footprint i = ⟨[.src, .dst], n, m⟩)
include hi hfoot

/-- The stops of an operation whose row of R75 is SRC and DST, `n` bytes at SRC and `m` at DST. -/
theorem copyStops_of_footprint : CopyStops i n m := by
  intro s
  have hread (hs : s.src.written = true) : s.src.read .src = .ok s.src.val := (read_ok_iff _ _ _).2 ⟨hs, rfl⟩
  refine ⟨fun hs => ?_, fun hs hd => ?_, fun hs hd => ?_⟩
  · exact exec_fault_of_regFault hi (by simp [hfoot, State.regFault, State.readReg, read_of_unwritten _ hs])
  · exact exec_fault_of_regFault hi (by simp [hfoot, State.regFault, State.readReg, hread hs, read_of_unwritten _ hd])
  have hregs : ∀ r ∈ (footprint i).regs, s.isWritten r = true := by simp [hfoot, State.isWritten, hs, hd]
  refine ⟨fun hfit => ?_, fun hsrc hdst => ⟨fun hsh => ?_, fun hsh k hk hfirst => ?_⟩⟩
  · exact exec_boundsError_of_not_fits hi hregs (by rwa [hfoot])
  · exact exec_overlapError_of_shares hi hregs (by rwa [hfoot]) (by rwa [hfoot]) (by rwa [hfoot])
  · exact exec_fault_of_firstUnwritten hi hregs (by rwa [hfoot]) (by rwa [hfoot])
      (by rw [hfoot]; exact (overlap_eq_false_iff _ _ _ _).2 hsh) (by rwa [hfoot]) hfirst

/-! ### What a copy completes with -/

/-- An operation with that row of R75 that does not write RESULT completes with its bytes at DST, once nothing stops it (R101,
R102). -/
theorem completesStoring_of_footprint (hw : writesResult i = false) (s : State) (bs : List Byte) (hs : s.src.written = true)
    (hd : s.dst.written = true) (hlen : bs.length = n) (hsrc : s.Fits s.src.val n) (hdst : s.Fits s.dst.val m)
    (hsh : ¬ Shares s.src.val n s.dst.val m) (hbs : s.Holds s.src.val bs) :
    CompletesStoring i s (storedBytes i s.value.val bs) := by
  apply completesStoring_of_exec
  rw [exec_completes hi (by simp [hfoot, State.isWritten, hs, hd]) (by rwa [hfoot]) (by rwa [hfoot])
    (by rw [hfoot]; exact (overlap_eq_false_iff _ _ _ _).2 hsh) (by rwa [hfoot]) hbs, effectOf_of_not_writesResult s bs hw]
  rfl

end

/-! ### The bytes of a range -/

/-- The bytes of a range are fixed by its length. -/
theorem eq_of_holds {s : State} {a : Word} {bs cs : List Byte} (hlen : bs.length = cs.length) (hbs : s.Holds a bs)
    (hcs : s.Holds a cs) : bs = cs := by
  refine List.ext_getElem? fun k => ?_
  by_cases hk : k < bs.length
  · rw [← hbs k hk, hcs k (hlen ▸ hk)]
  · rw [List.getElem?_eq_none (by omega), List.getElem?_eq_none (by omega)]

/-- The bytes the checks pass are those held at SRC (R122 step 5). -/
theorem holds_of_check_pass {s : State} {regs : List RegName} {srcLen dstLen : Nat} {bs : List Byte}
    (h : s.check regs srcLen dstLen = .pass bs) : s.Holds s.src.val bs := by
  obtain ⟨f, -, hc⟩ | ⟨-, ⟨-, hc⟩ | ⟨-, -, ⟨-, hc⟩ | ⟨-, ⟨a, -, hc⟩ | ⟨cs, hcs, hc⟩⟩⟩⟩ := check_cases s regs srcLen dstLen <;>
    rw [hc] at h
  case inr.inr.inr.inr =>
    obtain rfl : cs = bs := by simpa using h
    obtain ⟨hlen, hget⟩ := (readRun_ok_iff _ _ _ _).1 hcs
    exact fun k hk => hget k (hlen ▸ hk)
  all_goals simp at h

/-- Zero bytes in front do not change a big-endian number (R104). -/
theorem beNumber_replicate_zero_append (k : Nat) (bs : List Byte) : beNumber (List.replicate k 0x00#8 ++ bs) = beNumber bs := by
  induction k with
  | zero => rfl
  | succ k ih => exact ih

/-! ### The copies' descriptors -/

/-- COPY's descriptor is `LEN << 16 | 0x30` (R76, R77). -/
theorem encode_copy_eq_or (len : BitVec 16) : encode (.copy len) = (len.setWidth 32 <<< 16) ||| 0x30#32 :=
  (encodeFields_eq_or 0x30#8 0#4 len).trans (by simp)

/-- TRUNCPAD's descriptor is `LEN << 16 | W << 8 | 0x31` (R76, R77). -/
theorem encode_truncpad_eq_or (w : BitVec 4) (len : BitVec 16) :
    encode (.truncpad w len) = (len.setWidth 32 <<< 16) ||| (w.setWidth 32 <<< 8) ||| 0x31#32 :=
  encodeFields_eq_or 0x31#8 w len

/-- A TRUNCPAD descriptor is legal only if its width is (R69, R72). -/
theorem wellFormed_of_legalR72_encode_truncpad {w : BitVec 4} {len : BitVec 16} (h : LegalR72 (encode (.truncpad w len))) :
    (Instr.truncpad w len).WellFormed := by
  obtain ⟨hop, hw, -, -⟩ := Laws.LegalDescriptor.fields (.truncpad w len)
  have hne : 0x31#8 ∉ conversions.map Instr.opcode := by decide
  obtain ⟨-, ⟨hmem, -⟩ | ⟨hrun, -⟩ | ⟨-, hlegal⟩⟩ := (legalR72_iff _).1 h
  · rw [hop] at hmem
    exact absurd hmem hne
  · simp [hop, Instr.opcode] at hrun
  · rwa [hw] at hlegal

/-! ### The obligations -/

/-- Settles O16: the formula is that of `overlap_iff_shares`, and a shared byte fails the check after the bounds. -/
theorem overlapMeansSharedByte : Obligations.OverlapMeansSharedByte := by
  refine ⟨fun a b n m => ⟨overlap_iff _ _ _ _, overlap_iff_shares a b n m⟩, fun s i hi hs hd hregs hsrc hdst hsh => ?_⟩
  exact exec_overlapError_of_shares hi (by simp [hregs, hs, hd]) hsrc hdst hsh

/-- Settles O14: COPY's row of R75 gives its stops, and the bytes it stores are the source bytes. -/
theorem copyMovesBytesVerbatim : Obligations.CopyMovesBytesVerbatim := fun len =>
  ⟨decode_of_encode_eq rfl (encode_copy_eq_or len), copyStops_of_footprint rfl rfl, completesStoring_of_footprint rfl rfl rfl⟩

/-- Settles O15: a legal width gives TRUNCPAD's row of R75, with the padded source bytes stored; any other width is rejected. -/
theorem truncpadCopiesOrZeroFills : Obligations.TruncpadCopiesOrZeroFills := by
  rintro w len n rfl
  rw [← encode_truncpad_eq_or, ← legalWidth_iff]
  refine ⟨fun hw => ?_, fun hw => ?_⟩
  · refine ⟨decode_encode hw, copyStops_of_footprint hw rfl, fun s bs hs hd hlen hsrc hdst hsh hbs => ?_⟩
    rw [← hlen]
    exact completesStoring_of_footprint (i := .truncpad w len) hw rfl rfl s bs hs hd hlen hsrc hdst hsh hbs
  · have hill : ¬ LegalR72 (encode (.truncpad w len)) := fun h => hw (wellFormed_of_legalR72_encode_truncpad h)
    exact ⟨decode_error_of_not_legalR72 hill, fun s => runRequest_of_not_legalR72 s hill⟩

/-- Settles O17: STATUS = 0 rules out a raised error, so the bytes at DST are the source bytes behind zero bytes. -/
theorem truncpadKeepsTheNumber : Obligations.TruncpadKeepsTheNumber := by
  intro w len s t bs ds hle hexec hstatus hlen hbs hdsLen hds
  obtain ⟨e, he, rfl⟩ | ⟨cs, -, hc, rfl⟩ := exec_next hexec
  · exact absurd ((statusWord_eq_zero_iff e).1 hstatus) he
  have hcsLen : cs.length = (footprint (.truncpad w len)).srcLen := length_of_check_pass hc
  have hfoot : (footprint (.truncpad w len)).srcLen = len.toNat := if_pos hle
  obtain rfl : cs = bs := eq_of_holds (hcsLen.trans (hfoot.trans hlen.symm)) (holds_of_check_pass hc) hbs
  have hpad : (padded w cs).length = w.toNat := storedBytes_length (.truncpad w len) s.value.val hcsLen
  obtain rfl : ds = padded w cs := eq_of_holds (hdsLen.trans hpad.symm) hds (store_holds s s.dst.val (padded w cs))
  exact beNumber_replicate_zero_append _ cs

end Sys2Proof.Machine
end

section
/-! PROOF. What the statements of 42_crc8.md need: that the bit-serial step and the byte step run the same shifts, that a byte equal to
the running value clears it, and what CRCGEN and CRCCHK complete with. -/

namespace Sys2Proof.Machine

/-! ### The two forms of the checksum -/

/-- A data byte XORed into the running value before a shift has done its top bit's part, and its other bits move up (R112). -/
theorem crcBit_xor_false (c b : Byte) : crcBit (c ^^^ b) false = crcBit c (b.getLsbD 7) ^^^ (b <<< 1) := by
  rw [crcBit, crcBit, Bool.xor_false, BitVec.getLsbD_xor, BitVec.shiftLeft_xor_distrib]
  split
  · ac_rfl
  · rfl

/-- After `k` data bits the running value of the byte form is that of the bit-serial form, with the data bits to come still in it. -/
theorem repeat_crcBit_xor (c b : Byte) {k : Nat} (hk : k ≤ 8) :
    Nat.repeat (fun x => crcBit x false) k (c ^^^ b) =
      (List.range k).foldl (fun x i => crcBit x (b.getLsbD (7 - i))) c ^^^ (b <<< k) := by
  induction k with
  | zero => simp [Nat.repeat]
  | succ k ih =>
    have htop : (b <<< k).getLsbD 7 = b.getLsbD (7 - k) := by simp [show ¬ 7 < k by omega, show 7 - k < 8 by omega]
    rw [Nat.repeat, ih (by omega), crcBit_xor_false, htop, ← BitVec.shiftLeft_add, List.range_succ, List.foldl_append]
    rfl

theorem byteForm_eq_repeat (c b : Byte) : byteForm c b = Nat.repeat (fun x => crcBit x false) 8 (c ^^^ b) := by
  simp only [byteForm, crcBit, crcPoly, Bool.xor_false]

/-- The two forms agree on one byte: after eight data bits none is left in the running value (R112). -/
theorem crcByte_eq_byteForm (c b : Byte) : crcByte c b = byteForm c b := by
  have hnone : b <<< 8 = 0#8 := BitVec.shiftLeft_eq_zero (by decide)
  calc crcByte c b
      = (List.range 8).foldl (fun x i => crcBit x (b.getLsbD (7 - i))) c := rfl
    _ = Nat.repeat (fun x => crcBit x false) 8 (c ^^^ b) := by rw [repeat_crcBit_xor c b (by decide), hnone, BitVec.xor_zero]
    _ = byteForm c b := (byteForm_eq_repeat c b).symm

/-- A byte equal to the running value clears it: the byte form then shifts 0 (R115). -/
theorem crcByte_self (c : Byte) : crcByte c c = 0x00#8 := by
  rw [crcByte_eq_byteForm, byteForm, BitVec.xor_self]
  rfl

theorem crc8_zero_word : crc8 [0#8, 0#8] = 0x81#8 := by simp [crc8, crcInit, crcByte, crcBit, crcPoly]

/-- The second word starts from the first one's checksum, not from the initial value (R115). -/
theorem crc8_two_zero_words : crc8 [0#8, 0#8, 0#8, 0#8] = 0xD7#8 := by
  calc crc8 ([0#8, 0#8] ++ [0#8, 0#8])
      = [0#8, 0#8].foldl crcByte 0x81#8 := by rw [crc8_append, crc8_zero_word]
    _ = 0xD7#8 := by simp [crcByte, crcBit, crcPoly]

/-! ### The operations -/

/-- A descriptor without a width is `LEN << 16 | OP` (R76). -/
theorem encodeFields_zero_width (op : BitVec 8) (len : BitVec 16) :
    encodeFields op 0#4 len = (len.setWidth 32 <<< 16) ||| op.setWidth 32 :=
  (encodeFields_eq_or op 0#4 len).trans (by simp)

/-- CRCGEN completes with the checksum of the bytes at SRC in RESULT (R113). -/
theorem exec_crcgen_of_holds {len : BitVec 16} {s : State} {a : Word} {bs : List Byte} (hsrc : s.src = ⟨a, true⟩)
    (hfit : s.Fits a len.toNat) (hlen : bs.length = len.toNat) (hbytes : s.Holds a bs) :
    exec (.crcgen len) s = .next (s.setResult ((crc8 bs).setWidth 32)).complete :=
  exec_of_source_holds (i := .crcgen len) rfl (by rw [hlen]; rfl) hsrc (by rwa [hlen]) hbytes

section
variable {len : BitVec 16} {s : State}

/-- CRCCHK's operand registers are SRC, then EXPECT (R75). -/
theorem exec_crcchk_fault_of_src_unwritten (hs : s.src.written = false) :
    exec (.crcchk len) s = .fault (.unwrittenRegister .src) :=
  exec_fault_of_regFault rfl (by simp [footprint, State.regFault, State.readReg, read_of_unwritten _ hs])

theorem exec_crcchk_fault_of_expect_unwritten (hs : s.src.written = true) (he : s.expect.written = false) :
    exec (.crcchk len) s = .fault (.unwrittenRegister .expect) := by
  have hread : s.src.read .src = .ok s.src.val := (read_ok_iff _ _ _).2 ⟨hs, rfl⟩
  exact exec_fault_of_regFault rfl (by simp [footprint, State.regFault, State.readReg, hread, read_of_unwritten _ he])

variable (hs : s.src.written = true) (he : s.expect.written = true)
include hs he

theorem crcchk_regs_written : ∀ r ∈ (footprint (.crcchk len)).regs, s.isWritten r = true := by
  simp [footprint, State.isWritten, hs, he]

theorem exec_crcchk_boundsError (hfit : ¬ s.Fits s.src.val len.toNat) :
    exec (.crcchk len) s = .next { s with status := 2#32 } :=
  exec_boundsError_of_not_fits rfl (crcchk_regs_written hs he) (.inl hfit)

variable (hfit : s.Fits s.src.val len.toNat)
include hfit

theorem exec_crcchk_fault_of_firstUnwritten {k : Nat} (hk : k < len.toNat) (hfirst : s.FirstUnwritten s.src.val k) :
    exec (.crcchk len) s = .fault (.unwrittenMemory (s.src.val.toNat + k)) :=
  exec_fault_of_firstUnwritten rfl (crcchk_regs_written hs he) hfit (.inl rfl) (overlap_zero_right _ _ _) hk hfirst

/-- CRCCHK completes with the outcome of the comparison in RESULT, which is no error either way (R114). -/
theorem exec_crcchk_of_holds {bs : List Byte} (hlen : bs.length = len.toNat) (hbytes : s.Holds s.src.val bs) :
    exec (.crcchk len) s =
      .next (s.setResult (if crc8 bs = s.expect.val.extractLsb' 0 8 then 1#32 else 0#32)).complete :=
  exec_completes rfl (crcchk_regs_written hs he) hfit (.inl rfl) (overlap_zero_right _ _ _) hlen hbytes

end

/-! ### The obligations -/

/-- Settles O20: the two forms agree on each byte, from any running value. -/
theorem crcByteFormAgrees : Obligations.CrcByteFormAgrees := by
  intro bs
  rw [crc8, show crcByte = byteForm from funext₂ crcByte_eq_byteForm]
  rfl

/-- Settles O21: the appended checksum is the running value, which it clears; the framed word is the two bytes U16TOB stored;
two zero words show the difference. -/
theorem crcLaws : Obligations.CrcLaws := by
  refine ⟨crc8_nil, fun bs => ?_, fun s a v hdst hsrc hvalue hfit => ?_, 0#8, 0#8, 0#8, 0#8, ?_⟩
  · rw [crc8_append]
    exact crcByte_self (crc8 bs)
  · rw [← bytes16_setWidth]
    have hbytes := store_holds s a (bytes16 (v.setWidth 16))
    exact ⟨_, _, exec_store16 (by decide) hdst hvalue hfit, exec_crcgen_of_holds hsrc hfit rfl hbytes, rfl⟩
  · rw [crc8_zero_word, crc8_two_zero_words]
    decide

/-- Settles O18: CRCGEN's row of R75 is SRC and LEN bytes at SRC. -/
theorem crcgenWritesChecksum : Obligations.CrcgenWritesChecksum := fun len =>
  ⟨decode_of_encode_eq rfl (encodeFields_zero_width 0x40#8 len), sourceStops_of_footprint rfl rfl,
    fun _ _ hs hfit hlen hbytes => exec_crcgen_of_holds (eq_of_written hs) hfit hlen hbytes⟩

/-- Settles O19: CRCCHK's stops in the order of R122, then the comparison's two outcomes. -/
theorem crcchkWritesMatch : Obligations.CrcchkWritesMatch := by
  refine fun len => ⟨decode_of_encode_eq rfl (encodeFields_zero_width 0x41#8 len), fun s => ⟨exec_crcchk_fault_of_src_unwritten,
    exec_crcchk_fault_of_expect_unwritten, fun hs he => ⟨exec_crcchk_boundsError hs he, fun hfit =>
      ⟨fun k hk => exec_crcchk_fault_of_firstUnwritten hs he hfit hk, fun bs hlen hbytes => ?_⟩⟩⟩⟩
  rw [exec_crcchk_of_holds hs he hfit hlen hbytes]
  constructor
  · intro hmatch
    rw [if_pos hmatch]
    rfl
  · intro hmismatch
    rw [if_neg hmismatch]
    rfl

end Sys2Proof.Machine
end

section
/-! PROOF. What the statements of 60_exceptions.md need: which reads of registers and bytes fault, every fault of an operation, of
an interaction and of a step, and the state a fault leaves. -/

namespace Sys2Proof.Machine

/-! ### What cannot be read -/

/-- A read of a register fails only on register 7 and on an unwritten register, with the fault that names it (R31, R33). -/
theorem readReg_error_iff (s : State) (r : RegName) (f : Fault) :
    s.readReg r = .error f ↔
      (r = .reserved ∧ f = .reservedRegister) ∨
        (r ∈ [RegName.src, .dst, .value, .expect, .result] ∧ s.isWritten r = false ∧ f = .unwrittenRegister r) := by
  cases r with
  | cmd | status => simp [State.readReg]
  | src | dst | value | expect | result => simp [State.readReg, State.isWritten, read_error_iff]
  | reserved => simpa [State.readReg] using eq_comm

/-- R75: register 7 is an operand of no operation. -/
theorem reserved_not_mem_regs (i : Instr) : .reserved ∉ (footprint i).regs := by
  cases i <;> simp [footprint]

/-- The operand registers of R75 are among those with a written mark (R30). -/
theorem mem_marked_of_mem_regs {i : Instr} {r : RegName} (h : r ∈ (footprint i).regs) :
    r ∈ [RegName.src, .dst, .value, .expect, .result] := by
  revert r
  cases i <;> simp [footprint]

/-- A range whose bytes are all written holds some run of bytes (R50). -/
theorem exists_holds_of_isSome {s : State} {a : Word} {n : Nat} (h : ∀ k, k < n → (s.mem.get (a.toNat + k)).isSome = true) :
    ∃ bs : List Byte, bs.length = n ∧ s.Holds a bs := by
  cases hread : s.mem.readRun a.toNat n with
  | error x =>
    obtain ⟨k, hk, -, hnone, -⟩ := (readRun_error_iff _ _ _ _).1 hread
    have hsome := h k hk
    simp [hnone] at hsome
  | ok bs =>
    obtain ⟨hlen, hget⟩ := (readRun_ok_iff _ _ _ _).1 hread
    exact ⟨bs, hlen, fun k hk => hget k (hlen ▸ hk)⟩

/-! ### Every fault -/

/-- The operand register check faults on the first unwritten register of the operation's row of R75 (R122 step 2). -/
theorem regFault_of_first_unwritten {i : Instr} {s : State} {before after : List RegName} {r : RegName}
    (hregs : (footprint i).regs = before ++ r :: after) (hbefore : ∀ q ∈ before, s.isWritten q = true)
    (hr : s.isWritten r = false) : s.regFault (footprint i).regs = some (.unwrittenRegister r) := by
  have hmem : r ∈ (footprint i).regs := by simp [hregs]
  exact (regFault_some_iff _ _ _).2 ⟨before, r, after, hregs, fun q hq => readReg_of_isWritten (hbefore q hq),
    (readReg_error_iff _ _ _).2 (.inr ⟨mem_marked_of_mem_regs hmem, hr, rfl⟩)⟩

/-- Every fault of an operation: an unwritten operand register, or an unwritten byte of its source range, which is in bounds (R31,
R50). -/
theorem exec_fault {i : Instr} {s : State} {f : Fault} (h : exec i s = .fault f) :
    (∃ r ∈ (footprint i).regs, s.isWritten r = false ∧ f = .unwrittenRegister r) ∨
      ∃ k < (footprint i).srcLen, s.Fits s.src.val (footprint i).srcLen ∧ s.mem.get (s.src.val.toNat + k) = none ∧
        f = .unwrittenMemory (s.src.val.toNat + k) := by
  by_cases hi : i.WellFormed
  case neg => simp [exec_of_illegal_width i s hi] at h
  rw [exec_eq_request i s hi] at h
  obtain hf | ⟨a, hin, hread, rfl⟩ := request_fault h
  · obtain ⟨before, r, after, hregs, -, hr⟩ := (regFault_some_iff _ _ _).1 hf
    have hmem : r ∈ (footprint i).regs := by simp [hregs]
    obtain ⟨rfl, -⟩ | ⟨-, hw, rfl⟩ := (readReg_error_iff _ _ _).1 hr
    · exact absurd hmem (reserved_not_mem_regs i)
    · exact .inl ⟨r, hmem, hw, rfl⟩
  · obtain ⟨k, hk, rfl, hnone, -⟩ := (readRun_error_iff _ _ _ _).1 hread
    exact .inr ⟨k, hk, (inBounds_iff _ _ _).1 hin, hnone, rfl⟩

/-- A request whose descriptor decodes is the operation, with CMD stored (R122). -/
theorem runRequest_of_decode_ok {d : Word} {i : Instr} (s : State) (h : decode d = .ok i) :
    runRequest d s = exec i (s.setCmd d) := by
  simp [runRequest, h]

/-- Every fault of a request is one of its operation (R73, R122). -/
theorem runRequest_fault {d : Word} {s : State} {f : Fault} (h : runRequest d s = .fault f) :
    ∃ i, decode d = .ok i ∧ exec i (s.setCmd d) = .fault f := by
  unfold runRequest at h
  split at h
  · cases h
  next i hi => exact ⟨i, hi, h⟩

/-- Every fault of an interaction (R127). -/
theorem interact_fault {x : Interaction} {s : State} {f : Fault} (h : interact x s = .fault f) :
    (∃ d i, x = .regWrite 0 d ∧ decode d = .ok i ∧ exec i (s.setCmd d) = .fault f) ∨
    (∃ v, x = .regWrite 7 v ∧ f = .reservedRegister) ∨
    (∃ n, x = .regRead n ∧ s.readReg (RegName.ofNumber n) = .error f) ∨
    (∃ a b, x = .memWrite a b ∧ s.memBytes ≤ a.toNat ∧ f = .hostOutOfRange a.toNat) ∨
    (∃ a, x = .memRead a ∧ s.memBytes ≤ a.toNat ∧ f = .hostOutOfRange a.toNat) ∨
    (∃ a, x = .memRead a ∧ a.toNat < s.memBytes ∧ s.mem.get a.toNat = none ∧ f = .unwrittenMemory a.toNat) := by
  cases x with
  | regWrite n v =>
    simp only [interact, regWrite] at h
    split at h
    next hn =>
      obtain rfl := (ofNumber_eq_iff n .reserved).1 hn
      cases h
      exact .inr (.inl ⟨v, rfl, rfl⟩)
    next hn =>
      obtain rfl := (ofNumber_eq_iff n .cmd).1 hn
      obtain ⟨i, hi, hexec⟩ := runRequest_fault h
      exact .inl ⟨v, i, rfl, hi, hexec⟩
    next => cases h
  | regRead n =>
    simp only [interact, regRead] at h
    split at h
    next g hg =>
      cases h
      exact .inr (.inr (.inl ⟨n, rfl, hg⟩))
    next => cases h
  | memWrite a b =>
    simp only [interact, memWrite] at h
    split at h
    next ha =>
      cases h
      exact .inr (.inr (.inr (.inl ⟨a, b, rfl, ha, rfl⟩)))
    next => cases h
  | memRead a =>
    simp only [interact, memRead] at h
    split at h
    next ha =>
      cases h
      exact .inr (.inr (.inr (.inr (.inl ⟨a, rfl, ha, rfl⟩))))
    next ha =>
      split at h
      next hnone =>
        cases h
        exact .inr (.inr (.inr (.inr (.inr ⟨a, rfl, by omega, hnone, rfl⟩))))
      next => cases h
  | reset => cases h

/-- A step that faults is the host's first interaction, which does (R37). -/
theorem step_fault {s : State} {f : Fault} (h : step s = .fault f) :
    ∃ x rest, s.pending = x :: rest ∧ interact x (s.setPending rest) = .fault f := by
  obtain ⟨-, hs⟩ | ⟨-, -, hs⟩ | ⟨x, rest, -, hp, hs⟩ := step_cases s <;> rw [hs] at h
  · cases h
  · cases h
  · exact ⟨x, rest, hp, h⟩

/-! ### The marked state -/

theorem afterFault_request (d : Word) (s : State) : afterFault (.regWrite 0 d) s = (s.setCmd d).markFault := rfl

theorem afterFault_of_not_request {x : Interaction} (s : State) (h : ∀ d, x ≠ .regWrite 0 d) :
    afterFault x s = s.markFault := by
  cases x with
  | regWrite n v => exact if_neg fun hn => h v (congrArg (Interaction.regWrite · v) ((ofNumber_eq_iff n .cmd).1 hn))
  | regRead | memWrite | memRead | reset => rfl

/-- The marked state is that of the faulting interaction, which is off the host's list (R127, log entry 6). -/
theorem advance_of_fault {s : State} {f : Fault} {x : Interaction} {rest : List Interaction} (h : step s = .fault f)
    (hp : s.pending = x :: rest) : s.advance = afterFault x (s.setPending rest) := by
  simp [State.advance, h, hp]

theorem advance_marked {s : State} (h : s.faultMark = true) : s.advance = s := by
  simp [State.advance, step_marked h]

/-! ### The obligations -/

/-- Settles O26: each outcome of the operation in the order of R122's checks, with CMD stored first. -/
theorem checksRunInPriorityOrder : Obligations.ChecksRunInPriorityOrder := by
  refine ⟨fun s d hd => runRequest_of_not_legalR72 s hd, ?_⟩
  rintro s d i n m hd rfl rfl
  have hi := wellFormed_of_decode_ok hd
  rw [runRequest_of_decode_ok s hd]
  refine ⟨fun before r after hregs hbefore hr => ?_, fun hwritten => ?_⟩
  · exact exec_fault_of_regFault hi (regFault_of_first_unwritten hregs (by simpa using hbefore) (by simpa using hr))
  have hregs : ∀ r ∈ (footprint i).regs, (s.setCmd d).isWritten r = true := by simpa using hwritten
  refine ⟨exec_boundsError_of_not_fits hi hregs, fun hsrc hdst =>
    ⟨exec_overlapError_of_shares hi hregs hsrc hdst, fun hsh => ?_⟩⟩
  have hdisj := (overlap_eq_false_iff _ _ _ _).2 hsh
  refine ⟨fun k => exec_fault_of_firstUnwritten hi hregs hsrc hdst hdisj, fun hbytes => ?_⟩
  obtain ⟨bs, hlen, hbs⟩ := exists_holds_of_isSome hbytes
  exact ⟨_, exec_completes hi hregs hsrc hdst hdisj hlen hbs, rfl⟩

/-- Settles O43: each fault of the host's first interaction, an operation's among them, meets the conditions of its row. -/
theorem faultsOnlyWhereTheTableSays : Obligations.FaultsOnlyWhereTheTableSays := by
  intro s f h
  obtain ⟨x, rest, hp, hx⟩ := step_fault h
  have hhead : s.pending.head? = some x := by rw [hp]; rfl
  obtain ⟨d, i, rfl, hd, hexec⟩ | ⟨v, rfl, rfl⟩ | ⟨n, rfl, hread⟩ | ⟨a, b, rfl, ha, rfl⟩ | ⟨a, rfl, ha, rfl⟩ |
    ⟨a, rfl, ha, hnone, rfl⟩ := interact_fault hx
  · obtain ⟨r, hr, hw, rfl⟩ | ⟨k, hk, hfit, hnone, rfl⟩ := exec_fault hexec
    · exact ⟨by simpa using hw, mem_marked_of_mem_regs hr, .inr ⟨d, i, hhead, hd, hr⟩⟩
    · have hin : s.Fits s.src.val (footprint i).srcLen := hfit
      have hlt : s.src.val.toNat + k < s.memBytes := by omega
      exact ⟨hlt, hnone, .inr ⟨d, i, hhead, hd, Nat.le_add_right _ k, Nat.add_lt_add_left hk _⟩⟩
  · exact .inr ⟨v, hhead⟩
  · obtain ⟨hn, rfl⟩ | ⟨hmem, hw, rfl⟩ := (readReg_error_iff _ _ _).1 hread
    · obtain rfl := (ofNumber_eq_iff n .reserved).1 hn
      exact .inl hhead
    · exact ⟨by simpa using hw, hmem, .inl ⟨n, hhead, rfl⟩⟩
  · exact ⟨ha, .inl ⟨a, b, hhead, rfl⟩⟩
  · exact ⟨ha, .inr ⟨a, hhead, rfl⟩⟩
  · exact ⟨ha, hnone, .inl ⟨a, hhead, rfl⟩⟩

/-- Settles O45: a fault is followed by `afterFault` of the interaction, which stores CMD only if that was a request; a marked state
is refused. -/
theorem faultSetsStickyMark : Obligations.FaultSetsStickyMark := by
  refine ⟨fun s f h => ?_, fun s => advance_marked⟩
  obtain ⟨x, rest, hp, -⟩ := step_fault h
  rw [advance_of_fault h hp, hp]
  by_cases hreq : ∃ d, x = .regWrite 0 d
  · obtain ⟨d, rfl⟩ := hreq
    rw [afterFault_request]
    exact ⟨rfl, rfl, fun e he => by simpa using he, fun hne => absurd rfl (hne d)⟩
  · rw [afterFault_of_not_request _ fun d hd => hreq ⟨d, hd⟩]
    exact ⟨rfl, rfl, fun d hd => absurd ⟨d, Option.some.inj hd⟩ hreq, fun _ => rfl⟩

end Sys2Proof.Machine
end

section
/-! PROOF. What the statements of 70_reset_and_hazards.md need: the table Reset leaves, that an interaction does not look at what the
host has yet to do, and how a run goes through the host's sequence. -/

namespace Sys2Proof.Machine

/-! ### Reset -/

/-- The power-on state is that of R36's table, for a memory of any size. -/
theorem resetWith_afterResetTable (top : Word) : AfterResetTable (State.resetWith top) :=
  ⟨rfl, rfl, by simp [State.isWritten, State.resetWith], fun _ => rfl⟩

/-- Reset leaves the registers and the memory of power-on (R140). -/
theorem hostReset_afterResetTable (s : State) : AfterResetTable s.hostReset := resetWith_afterResetTable s.memTop

/-! ### No interaction looks at what the host has yet to do (R20, R37) -/

/-- An outcome with the interactions `ps` yet to be made in its next state. -/
def withPending (ps : List Interaction) : Host.Outcome State Fault Refusal → Host.Outcome State Fault Refusal
  | .next t => .next (t.setPending ps)
  | .fault f => .fault f
  | .refused r => .refused r

section
variable (s : State) (ps : List Interaction)

theorem check_setPending (regs : List RegName) (srcLen dstLen : Nat) :
    (s.setPending ps).check regs srcLen dstLen = s.check regs srcLen dstLen :=
  check_congr rfl (regFault_congr fun r _ => readReg_setPending s ps r) (fun _ _ => rfl) (fun _ _ => rfl) (fun _ _ => rfl)

theorem effectOf_setPending (i : Instr) (bs : List Byte) :
    effectOf i (s.setPending ps) bs = (effectOf i s bs).setPending ps := by
  cases i <;> rfl

theorem exec_setPending (i : Instr) : exec i (s.setPending ps) = withPending ps (exec i s) := by
  by_cases hi : i.WellFormed
  · simp only [exec_eq_request i _ hi, State.request, check_setPending, effectOf_setPending]
    cases s.check (footprint i).regs (footprint i).srcLen (footprint i).dstLen <;> rfl
  · simp only [exec_of_illegal_width i _ hi]
    rfl

theorem runRequest_setPending (d : Word) : runRequest d (s.setPending ps) = withPending ps (runRequest d s) := by
  unfold runRequest
  cases decode d with
  | error e => rfl
  | ok i => exact exec_setPending (s.setCmd d) ps i

theorem interact_setPending (x : Interaction) : interact x (s.setPending ps) = withPending ps (interact x s) := by
  cases x with
  | regWrite n v =>
    simp only [interact, regWrite]
    cases RegName.ofNumber n with
    | cmd => exact runRequest_setPending s ps v
    | src | dst | value | expect | result | status | reserved => rfl
  | regRead n =>
    simp only [interact, regRead, readReg_setPending]
    cases s.readReg (RegName.ofNumber n) <;> rfl
  | memWrite a b =>
    simp only [interact, memWrite, setPending_memBytes]
    by_cases ha : s.memBytes ≤ a.toNat <;> simp only [ha, if_true, if_false] <;> rfl
  | memRead a =>
    simp only [interact, memRead, setPending_memBytes, setPending_mem]
    by_cases ha : s.memBytes ≤ a.toNat <;> simp only [ha, if_true, if_false]
    · rfl
    · cases s.mem.get a.toNat <;> rfl
  | reset => rfl

end

/-! ### Runs -/

/-- An interaction that does not fault leaves the fault mark as it was (R40, R127, R140). -/
theorem interact_next_faultMark {x : Interaction} {s t : State} (h : interact x s = .next t) : t.faultMark = s.faultMark := by
  obtain ⟨d, -, hd⟩ | ⟨n, v, -, -, rfl⟩ | ⟨n, v, -, rfl⟩ | ⟨a, b, -, -, rfl⟩ | ⟨a, b, -, rfl⟩ | ⟨-, rfl⟩ :=
    interact_next_cases h
  case inl =>
    obtain ⟨hmark, -⟩ := runRequest_next_host hd
    exact hmark
  all_goals simp

/-- `n` steps of this machine. -/
def runSteps (n : Nat) (s : State) : Host.Outcome State Fault Refusal := Host.Core.run core n s

theorem runAll_eq_runSteps (top : Word) (xs : List Interaction) :
    runAll top xs = runSteps xs.length ((State.resetWith top).setPending xs) := rfl

@[simp] theorem runSteps_zero (s : State) : runSteps 0 s = .next s := rfl

theorem core_run_of_next {M : Host.Core} {s t : M.State} (n : Nat) (h : M.step s = .next t) : M.run (n + 1) s = M.run n t := by
  rw [Host.Core.run, h]

theorem core_run_of_fault {M : Host.Core} {s : M.State} {f : M.Fault} (n : Nat) (h : M.step s = .fault f) :
    M.run (n + 1) s = .fault f := by
  rw [Host.Core.run, h]

section
variable {s : State} (hs : s.faultMark = false) {x : Interaction} (ps : List Interaction)
include hs

/-- A step is the effect of the host's first interaction on the block, with the others yet to be made. -/
theorem step_setPending_cons : step (s.setPending (x :: ps)) = withPending ps (interact x s) :=
  (step_interact (s := s.setPending (x :: ps)) hs rfl).trans (interact_setPending s ps x)

theorem runSteps_cons_of_next {t : State} (n : Nat) (hx : interact x s = .next t) :
    runSteps (n + 1) (s.setPending (x :: ps)) = runSteps n (t.setPending ps) :=
  core_run_of_next (M := core) n ((step_setPending_cons hs ps).trans (congrArg (withPending ps) hx))

theorem runSteps_cons_of_fault {f : Fault} (n : Nat) (hx : interact x s = .fault f) :
    runSteps (n + 1) (s.setPending (x :: ps)) = .fault f :=
  core_run_of_fault (M := core) n ((step_setPending_cons hs ps).trans (congrArg (withPending ps) hx))

end

/-- A run goes through the interactions `xs` with the mark clear, or faults among them; which of the two, and what it leaves of the
block, does not depend on the interactions after them. -/
theorem runSteps_append_cases (xs : List Interaction) {s : State} (hs : s.faultMark = false) :
    (∃ t : State, t.faultMark = false ∧
      ∀ ys n, runSteps (xs.length + n) (s.setPending (xs ++ ys)) = runSteps n (t.setPending ys)) ∨
    ∃ f, ∀ ys n, runSteps (xs.length + n) (s.setPending (xs ++ ys)) = .fault f := by
  induction xs generalizing s with
  | nil => exact .inl ⟨s, hs, fun ys n => by simp⟩
  | cons x xs ih =>
    simp only [List.length_cons, List.cons_append, Nat.succ_add]
    cases hx : interact x s with
    | next t =>
      simp only [runSteps_cons_of_next hs _ _ hx]
      exact ih ((interact_next_faultMark hx).trans hs)
    | fault f => exact .inr ⟨f, fun ys n => runSteps_cons_of_fault hs _ _ hx⟩
    | refused r => exact absurd hx (interact_not_refused x s r)

/-! ### The obligations -/

/-- Settles O27: a fault of the operation would be an unwritten operand register or an unwritten source byte, and an operation is
never refused. -/
theorem initialisedRequestNeverFaults : Obligations.InitialisedRequestNeverFaults := by
  intro s d rest i hf hp hd hregs hbytes
  have hstep : step s = exec i ((s.setPending rest).setCmd d) :=
    (step_interact hf hp).trans (runRequest_of_decode_ok _ hd)
  cases hexec : exec i ((s.setPending rest).setCmd d) with
  | next t => exact ⟨t, hstep.trans hexec⟩
  | fault f =>
    obtain ⟨r, hr, hunwritten, -⟩ | ⟨k, hk, -, hnone, -⟩ := exec_fault hexec
    · simp [hregs r hr] at hunwritten
    · have hunwritten : s.mem.get (s.src.val.toNat + k) = none := hnone
      have hsome := hbytes k hk
      simp [hunwritten] at hsome
  | refused r => exact absurd hexec (exec_not_refused _ _ r)

/-- Settles O49: `runSteps_append_cases` from the reset state, with nothing after the sequence and with `ys` after it. -/
theorem runsEndGoodOrFault : Obligations.RunsEndGoodOrFault := by
  intro top xs
  obtain ⟨t, ht, hrun⟩ | ⟨f, hrun⟩ := runSteps_append_cases xs (s := State.resetWith top) rfl
  · have hnext : runAll top xs = .next (t.setPending []) := by
      simpa [runAll_eq_runSteps] using hrun [] 0
    exact ⟨.inl ⟨_, hnext, ht, rfl⟩, fun ys f hfault => by simp [hnext] at hfault⟩
  · have hfault : ∀ ys, runAll top (xs ++ ys) = .fault f := fun ys => by
      simpa [runAll_eq_runSteps] using hrun ys ys.length
    have hhere : runAll top xs = .fault f := by simpa using hfault []
    exact ⟨.inr ⟨f, hhere⟩, fun ys g hg => by rw [hfault ys, ← hhere, hg]⟩

/-- Settles O34: a step of Reset that answers a next state answers `hostReset`. -/
theorem resetLeavesTheTable : Obligations.ResetLeavesTheTable := by
  refine ⟨fun top => ⟨resetWith_afterResetTable top, rfl⟩, fun s t rest hp h => ?_⟩
  obtain ⟨hnil, -⟩ | ⟨x, rest', -, hx, ht⟩ := step_next_cases h
  · simp [hp] at hnil
  · obtain ⟨rfl, rfl⟩ : .reset = x ∧ rest = rest' := by simpa [hp] using hx
    obtain rfl : (s.setPending rest).hostReset = t := by simpa [interact] using ht
    exact ⟨hostReset_afterResetTable _, rfl, rfl⟩

/-- Settles O35: `hostReset` keeps the clear mark, the memory's size and the host's own part. -/
theorem resetCompletes : Obligations.ResetCompletes := by
  intro s rest hf hp
  rw [step_interact hf hp]
  simp [interact, State.hostReset, hf, State.resetWith]

end Sys2Proof.Machine
end
